-- ==== Sys2Proof/Word.lean ====
section
/-!
DEFINITION. The nibble, the character and the line of text (00_scope.md R8, R13).
-/

namespace Sys2Proof

/-- The 4-bit unit of storage and transport, an unsigned 0..15 (R8, R13). -/
abbrev Nibble := BitVec 4

/-- An 8-bit operation word, or a character, which is an ASCII byte (R8, R70). -/
abbrev Byte := BitVec 8

/-- A line: a finite sequence of characters without its line end (R8, R77). -/
abbrev Line := List Byte

/-- The ASCII byte of a character (R8). -/
def chr (c : Char) : Byte := BitVec.ofNat 8 c.toNat

end Sys2Proof
end

