-- ==== Sys2Proof/Config.lean ====
section
/-!
DEFINITION. What is fixed for the machine: the fixed parameters of 00_scope.md R6, the decided and open parameters of
R7, and the free values (opaque constants, of which nothing can be proved).
-/

namespace Sys2Proof

namespace Config

/-- N_ADDR: nibbles in the device memory (R6). -/
@[simp] abbrev nAddr : Nat := 1024
/-- REC_NIBBLES: nibbles per N2CBU data record (R6). -/
@[simp] abbrev recNibbles : Nat := 64
/-- REC_COUNT: records per full dump (R6). -/
@[simp] abbrev recCount : Nat := 16
/-- REC_DATA_FIRST: index of the first data character of a record line (R6). -/
@[simp] abbrev recDataFirst : Nat := 5
/-- REC_MIN_LEN: minimum length of a data line (R6). -/
@[simp] abbrev recMinLen : Nat := 69
/-- HEX_BAD: what HEX_VALUE gives for a character that is no hex digit (R6). -/
@[simp] abbrev hexBad : Nat := 0xFF
/-- N_OFS: entries of the offset table (R6). -/
@[simp] abbrev nOfs : Nat := 5
/-- N_CHANNELS: channel records (R6). -/
@[simp] abbrev nChannels : Nat := 34
/-- CH_FILLER: opaque nibbles at the start of a channel record (R6). -/
@[simp] abbrev chFiller : Nat := 8
/-- MS_OFS_END: the address at which the offset table has just been consumed (R6). -/
@[simp] abbrev msOfsEnd : Nat := 0x10
/-- MS_LIM_END: the address at which the band-limit pair has just been consumed (R6). -/
@[simp] abbrev msLimEnd : Nat := 0x2D
/-- MS_CH_START: the address of the first channel record (R6). -/
@[simp] abbrev msChStart : Nat := 0x12A
/-- The address after the last channel record (R61, R167). -/
@[simp] abbrev chEnd : Nat := 0x38E
/-- OFS_BASE (R7, decided by D15). -/
@[simp] abbrev ofsBase : Nat := 0x06
/-- LIM_BASE (R7, decided by D15). -/
@[simp] abbrev limBase : Nat := 0x1B
/-- SUB_MOD: modulus of the sub-MHz accumulator (R6). -/
@[simp] abbrev subMod : Int := 10000

/-- OFS_DRAW (R7, R169): the offsets drawn for channels whose mode code has no table entry. FREE VALUE: no body; the
`n`-th draw is `ofsDraw n`, an integer under no law (notes/assumptions/5.md). -/
opaque ofsDraw : Nat → Int

/-- BLANK_MARKER (R7, R137): the text shown for a blank channel. FREE VALUE: no body (notes/assumptions/6.md). -/
opaque blankMarker : Line

/-- `a / 10` for a NEGATIVE accumulator in RENDER_FREQ, where R8 gives "/" no meaning. FREE VALUE: no body
(notes/assumptions/8.md). -/
opaque negQuotient : Int → Int

/-- `a % 10` for a NEGATIVE accumulator in RENDER_FREQ, where R8 gives "%" no meaning. FREE VALUE: no body
(notes/assumptions/8.md). -/
opaque negRemainder : Int → Int

/-- LABEL(A) for A above 0x3FF, for which R183 states no text. FREE VALUE: no body (notes/assumptions/27.md). -/
opaque unstatedLabel : Nat → Line

/-- How far CTR_WIDTH exceeds 10. FREE VALUE: no body (notes/assumptions/7.md). -/
opaque ctrWidthExtra : Nat

/-- CTR_WIDTH (R7, R21): the width of the external counter, at least 10 bits. No rule reads it. -/
def ctrWidth : Nat := 10 + ctrWidthExtra

end Config

/-- HEX_POLICY (R7, R186): what a data line with a character that is no hex digit does. -/
inductive HexPolicy where
  | rejectLine
  | clamp4Bit
  | fault
deriving DecidableEq, Repr

/-- OFS_NIBBLE_ORDER (R7, D13): which nibble of an offset entry lies at the lower address. -/
inductive NibbleOrder where
  | loFirst
  | hiFirst
deriving DecidableEq, Repr

/-- MISMATCH_ADDR (R7, D26): which address LASTMM records. -/
inductive MismatchAddr where
  | pre
  | post
deriving DecidableEq, Repr

/-- The parameters that R20 calls "fixed arguments of the model for a whole run", with every alternative R7 gives. -/
structure Params where
  /-- HEX_POLICY -/
  hexPolicy : HexPolicy
  /-- ACCEPT_LOWER -/
  acceptLower : Bool
  /-- RECORD_FILLER, the character at index 3 -/
  filler3 : Byte
  /-- RECORD_FILLER, the character at index 4 -/
  filler4 : Byte
  /-- LINE_END, what the transport appends to an emitted line (R76) -/
  lineEnd : Line
  /-- OFS_NIBBLE_ORDER -/
  ofsNibbleOrder : NibbleOrder
  /-- MISMATCH_ADDR -/
  mismatchAddr : MismatchAddr
deriving DecidableEq, Repr

/-- The defaults of R7. -/
def Params.default : Params where
  hexPolicy := .rejectLine
  acceptLower := true
  filler3 := 0x20#8
  filler4 := 0x20#8
  lineEnd := [0x0D#8, 0x0A#8]
  ofsNibbleOrder := .loFirst
  mismatchAddr := .pre

/-- What PARSE_LINE returns for a line that is no data line, for which R186 states no result: `none` is REJECT, else nibble j
of DATA. FREE VALUE: no body (notes/assumptions/28.md). -/
opaque Config.unstatedParse : Params → Line → Option (Nat → Nibble)

/-- RECORD_FILLER as text (R76). -/
def Params.recordFiller (p : Params) : Line := [p.filler3, p.filler4]

end Sys2Proof
end

