-- ==== Sys2Proof/Syntax.lean ====
section
/-!
DEFINITION. The abstract syntax: one constructor of Instr per row of spec/opcode_table.json, the types of their operands,
the sessions, and the items a host can send.
-/

namespace Sys2Proof

/-- SEQ (10_state.md R27): the session that owns the driver. -/
inductive SeqState where
  | idle
  | readS
  | programS
  | verifyS
  | listS
deriving DecidableEq, Repr

/-- What the host can send (R252): an operation word, or a line of text, which is a command line while SEQ = IDLE and
the answer to LineRead() while a Program or Verify session waits for one. -/
inductive HostItem where
  | word (w : Byte)
  | line (l : Line)
deriving DecidableEq, Repr

/-- A frequency field FB[0..8], in address order (30_encoding.md R81). -/
structure FreqField where
  fb0 : Nibble
  fb1 : Nibble
  fb2 : Nibble
  fb3 : Nibble
  fb4 : Nibble
  fb5 : Nibble
  fb6 : Nibble
  fb7 : Nibble
  fb8 : Nibble
deriving DecidableEq, Repr

/-- The result of DECODE_FREQ: BLANK, or FREQ(MHZ, ACC, D0) (41_codec.md R131). -/
inductive FreqResult where
  | blank
  | freq (mhz acc : Int) (d0 : Nibble)
deriving DecidableEq, Repr

/-- The kinds of an input line: END, SKIP, DATA (43_transport.md R185). -/
inductive LineKind where
  | endOfInput
  | skip
  | data
deriving DecidableEq, Repr

/-- The instructions: one constructor per row of spec/opcode_table.json, in the table's order. -/
inductive Instr where
  /-- RESET, R100 -/
  | reset
  /-- MODE_READ, R101 -/
  | modeRead
  /-- MODE_WRITE, R102 -/
  | modeWrite
  /-- WP_ASSERT, R103 -/
  | wpAssert
  /-- WP_DEASSERT, R104 -/
  | wpDeassert
  /-- READ_ADV, R105 -/
  | readAdv
  /-- WRITE_ADV #n, R106 -/
  | writeAdv (n : Nibble)
  /-- CMD_READ: a command line that starts a Read session, R193 -/
  | cmdRead (c : Line)
  /-- CMD_PROGRAM: a command line that starts a Program session, R194 -/
  | cmdProgram (c : Line)
  /-- CMD_VERIFY: a command line that starts a Verify session, R196 -/
  | cmdVerify (c : Line)
  /-- CMD_LIST: a command line that starts a List session, R160 -/
  | cmdList (c : Line)
  /-- CMD_NOP: every other command line, R222 -/
  | cmdNop (c : Line)
  /-- OPW_RESERVED: a reserved operation word, R72 -/
  | opwReserved (w : Byte)
  /-- DECODE_OFFSET(LO, HI), R130 -/
  | decodeOffset (lo hi : Nibble)
  /-- DECODE_FREQ(FB, ofs), R131 -/
  | decodeFreq (fb : FreqField) (ofs : Int)
  /-- NORMALIZE(m, a), R132 -/
  | normalize (m a : Int)
  /-- RENDER_OFFSET(LO, HI), R135 -/
  | renderOffset (lo hi : Nibble)
  /-- RENDER_FREQ(r), R136 -/
  | renderFreq (r : FreqResult)
  /-- HEX_CHAR(v), R180 -/
  | hexChar (v : Nibble)
  /-- HEX_VALUE(c), R181 -/
  | hexValue (c : Byte)
  /-- ENCODE_RECORD(A), R182 -/
  | encodeRecord (a : Nat)
  /-- LABEL(A), R183 -/
  | label (a : Nat)
  /-- QUALIFY_LINE(L), R184 -/
  | qualifyLine (l : Line)
  /-- CLASSIFY(L), R185 -/
  | classify (l : Line)
  /-- PARSE_LINE(L), R186 -/
  | parseLine (l : Line)
  /-- PROGRAM_LINE(L), R187 -/
  | programLine (l : Line)
  /-- VERIFY_LINE(L), R188 -/
  | verifyLine (l : Line)
  /-- SKIP n, R107 -/
  | skip (n : Nat)
  /-- SEEK a, R108 -/
  | seek (a : Nat)
deriving DecidableEq, Repr

end Sys2Proof
end

