-- ==== Sys2Proof/Machine/Flags.lean ====
section
/-!
DEFINITION. The block has no flag register (10_state.md R34). What other machines keep as flags are conditions computed
and consumed inside one operation: the sign bit of an offset entry, the blank sentinel, and the carry and borrow of the
frequency normalization.
-/

namespace Sys2Proof.Machine

/-- The sign bit HI[3] of an offset entry: true is negative (30_encoding.md R80). -/
def offsetSign (hi : Nibble) : Bool := 8 ≤ hi.toNat

/-- The tens digit HI & 0b111 of an offset entry (30_encoding.md R80). -/
def offsetTens (hi : Nibble) : Nibble := hi &&& 7#4

/-- Whether a frequency field is blank: FB[0] = 0xF (41_codec.md R131 step 1). -/
def isBlank (fb : FreqField) : Bool := fb.fb0 = 0xF#4

/-- The carry of NORMALIZE: `if a ≥ 10000: a <- a − 10000; m <- m + 1` (R132). -/
def carryStep (x : Int × Int) : Int × Int :=
  if Config.subMod ≤ x.2 then (x.1 + 1, x.2 - Config.subMod) else x

/-- The borrow of NORMALIZE: `if a < 0: a <- a + 10000; m <- m − 1` (R132). -/
def borrowStep (x : Int × Int) : Int × Int :=
  if x.2 < 0 then (x.1 - 1, x.2 + Config.subMod) else x

/-- NORMALIZE(m, a): one carry step, then one borrow step (R132). -/
def normalizePair (m a : Int) : Int × Int := borrowStep (carryStep (m, a))

end Sys2Proof.Machine
end

