-- ==== Sys2Proof/Machine/Operands.lean ====
section
/-!
DEFINITION. Operand forms: the nibble layouts of the memory image (30_encoding.md R80, R81) and the text of an N2CBU
line (R75 to R79). Pure functions; 41_codec.md R130, R131 and 43_transport.md R180, R181, R183 to R186 give them.
-/

namespace Sys2Proof.Machine

/-- DECODE_OFFSET(LO, HI), unit 0.1 kHz (R130). -/
def decodeOffset (lo hi : Nibble) : Int :=
  let mag : Int := (offsetTens hi).toNat * 10 + lo.toNat
  if offsetSign hi then -mag else mag

/-- The nine nibbles of a field, FB[i] the i-th in address order (R81, D14). Another number of nibbles does not occur. -/
def fieldOfList : List Nibble → FreqField
  | [a, b, c, d, e, f, g, h, i] => ⟨a, b, c, d, e, f, g, h, i⟩
  | _ => ⟨0, 0, 0, 0, 0, 0, 0, 0, 0⟩

/-- The MHz count of a field (R131 step 2). -/
def fieldMhz (fb : FreqField) : Int := fb.fb6.toNat * 10 + fb.fb5.toNat

/-- The sub-MHz accumulator of a field, unit 100 Hz (R131 step 3). -/
def fieldAcc (fb : FreqField) : Int :=
  fb.fb4.toNat * 1000 + fb.fb3.toNat * 100 + fb.fb2.toNat * 10 + fb.fb1.toNat

/-- DECODE_FREQ(FB[0..8], ofs) (R131). -/
def decodeFreq (fb : FreqField) (ofs : Int) : FreqResult :=
  if isBlank fb then .blank
  else
    let n := normalizePair (fieldMhz fb) (fieldAcc fb + ofs)
    .freq n.1 n.2 fb.fb0

/-- HEX_CHAR(v): the uppercase hex digit of a nibble (R180). -/
def hexChar (v : Nibble) : Byte :=
  if v.toNat ≤ 9 then BitVec.ofNat 8 (0x30 + v.toNat) else BitVec.ofNat 8 (0x41 + v.toNat - 10)

/-- HEX_VALUE(c): the nibble of a hex digit as a number, or HEX_BAD (R181). -/
def hexValue (acceptLower : Bool) (c : Byte) : Nat :=
  let n := c.toNat
  if 0x30 ≤ n ∧ n ≤ 0x39 then n - 0x30
  else if 0x41 ≤ n ∧ n ≤ 0x46 then n - 0x41 + 10
  else if acceptLower = true ∧ 0x61 ≤ n ∧ n ≤ 0x66 then n - 0x61 + 10
  else Config.hexBad

/-- LABEL(A): the three hex digits of an address, most significant first (R79, R183). Above 0x3FF, outside the operands of
R183, the text is a free value (DESIGN CHOICE, notes/assumptions/27.md). -/
def label (a : Nat) : Line :=
  if a < Config.nAddr then
    [hexChar (BitVec.ofNat 4 (a / 256)), hexChar (BitVec.ofNat 4 (a / 16 % 16)), hexChar (BitVec.ofNat 4 (a % 16))]
  else Config.unstatedLabel a

/-- REC_LEAD: the characters a data line may begin with (R6, R77). -/
def isRecLead (c : Byte) : Bool := 0x30 ≤ c.toNat && c.toNat ≤ 0x33

/-- QUALIFY_LINE(L) (R184). -/
def qualifyLine : Line → Bool
  | [] => false
  | c :: l => Config.recMinLen ≤ l.length + 1 && isRecLead c

/-- CLASSIFY(L) (R185). -/
def classify (l : Line) : LineKind :=
  if l.length = 0 then .endOfInput else if qualifyLine l then .data else .skip

/-- The hex values of the characters at indices 5 to 68 (R75, R186). -/
def lineValues (acceptLower : Bool) (l : Line) : List Nat :=
  ((l.drop Config.recDataFirst).take Config.recNibbles).map (hexValue acceptLower)

/-- The outcome of PARSE_LINE: DATA(p), REJECT, or F_HEX raised. -/
inductive Parsed where
  | data (p : List Nibble)
  | reject
  | badHex
deriving DecidableEq, Repr

/-- PARSE_LINE(L) under HEX_POLICY (R186). -/
def parseLine (p : Params) (l : Line) : Parsed :=
  let h := lineValues p.acceptLower l
  if Config.hexBad ∉ h then .data (h.map (BitVec.ofNat 4))
  else
    match p.hexPolicy with
    | .rejectLine => .reject
    | .clamp4Bit => .data (h.map (BitVec.ofNat 4))
    | .fault => .badHex

/-- The result of PARSE_LINE for a line that is no data line: a free value of the result's type, REJECT or DATA(p[0..63]), and
never F_HEX, which R241 gives for a data line only (DESIGN CHOICE, notes/assumptions/28.md). -/
def parseOther (p : Params) (l : Line) : Parsed :=
  match Config.unstatedParse p l with
  | none => .reject
  | some v => .data ((List.range Config.recNibbles).map v)

/-- The text of one record: label, filler, one hex digit per nibble (R76, R182). -/
def recordText (p : Params) (a : Nat) (vs : List Nibble) : Line :=
  label a ++ p.recordFiller ++ vs.map hexChar

end Sys2Proof.Machine
end

