-- ==== Sys2Proof/Machine/State.lean ====
section
/-!
DEFINITION. The machine's state as plain data: the tuple of 10_state.md R20 and the model's own fields, the reasons a step
can stop, and the power-on state.
-/

namespace Sys2Proof.Machine

/-- ADDR (R21): UNKNOWN, or the count 0..1024. The bound is part of the invariant in Sys2Proof.Safety. -/
inductive Counter where
  | unknown
  | val (n : Nat)
deriving DecidableEq, Repr

/-- MODE (R24): the data-bus direction. -/
inductive BusMode where
  | unconf
  | read
  | write
deriving DecidableEq, Repr

/-- WP (R25): the write-protect line. -/
inductive WriteProtect where
  | asserted
  | deasserted
deriving DecidableEq, Repr

/-- The spec's fault codes (60_exceptions.md R241). A fault of the spec is a NEXT state whose FAULT is not empty. -/
inductive FaultCode where
  | reserved
  | busy
  | addrUnknown
  | mode
  | wp
  | pastEnd
  | hex
  | unwritten
deriving DecidableEq, Repr

/-- The numbers of the fault codes (R241). -/
def FaultCode.number : FaultCode → Nat
  | .reserved => 1
  | .busy => 2
  | .addrUnknown => 3
  | .mode => 4
  | .wp => 5
  | .pastEnd => 6
  | .hex => 7
  | .unwritten => 8

/-- What raised a fault (R241): an operation word, PARSE_LINE, or the read of an offset entry. A driver operation that a
session issues is recorded by its word (notes/assumptions/10.md). -/
inductive FaultOp where
  | word (w : Byte)
  | parseLine
  | offsetFor
deriving DecidableEq, Repr

/-- A fault record (code, operation, ADDR) (R241). -/
structure FaultRecord where
  code : FaultCode
  op : FaultOp
  addr : Counter
deriving DecidableEq, Repr

/-- Which band limit (R164). -/
inductive LimitId where
  | low
  | high
deriving DecidableEq, Repr

/-- The output events (R31). -/
inductive Event where
  /-- a Read record, without its line end (R193) -/
  | line (text : Line)
  /-- OfsEntry(k, HI[3], HI & 0b111, LO); `sign` true is 1 (R163) -/
  | ofsEntry (k : Nat) (sign : Bool) (tens units : Nibble)
  /-- Limit(which, result) (R164) -/
  | limit (which : LimitId) (r : FreqResult)
  /-- Channel(index, mode, result); the index is −1, 0, 1..32 (R165) -/
  | channel (index : Int) (mode : Nibble) (r : FreqResult)
  /-- VerifyResult(LASTMM) (R197) -/
  | verifyResult (lastmm : Option Nat)
deriving DecidableEq, Repr

/-- The value an operation returns to its issuer: the model's own field (notes/assumptions/9.md). -/
inductive Result where
  /-- nothing is returned -/
  | none
  /-- READ_ADV -/
  | nibble (v : Nibble)
  /-- DECODE_OFFSET -/
  | offset (v : Int)
  /-- DECODE_FREQ -/
  | freq (r : FreqResult)
  /-- NORMALIZE -/
  | normalized (m a : Int)
  /-- RENDER_OFFSET, RENDER_FREQ, ENCODE_RECORD, LABEL -/
  | text (t : Line)
  /-- HEX_CHAR -/
  | char (c : Byte)
  /-- HEX_VALUE: 0..15 or 0xFF -/
  | hexVal (n : Nat)
  /-- QUALIFY_LINE -/
  | truth (b : Bool)
  /-- CLASSIFY, PROGRAM_LINE, VERIFY_LINE -/
  | kind (k : LineKind)
  /-- PARSE_LINE, DATA(p) -/
  | parsed (p : List Nibble)
  /-- PARSE_LINE, REJECT -/
  | rejected
deriving DecidableEq, Repr

/-- The device memory MEM (R26, R51) as cells: an address and a nibble in the low four bits of the byte. Canonical form:
Memory.wf below. -/
abbrev Memory := List Host.Cell

/-- The state of the block: R20's tuple, then the model's own fields. -/
structure State where
  /-- ADDR (R21) -/
  addr : Counter
  /-- MODE (R24) -/
  mode : BusMode
  /-- WP (R25) -/
  wp : WriteProtect
  /-- MEM (R26) -/
  mem : Memory
  /-- SEQ (R27); between steps a session stands only at LineRead(), so SEQ is also its position -/
  seq : SeqState
  /-- OFS[0..4] (R28); `none` is UNWRITTEN -/
  ofs : List (Option Int)
  /-- LASTMM (R29); `none` is NONE -/
  lastmm : Option Nat
  /-- FAULT (R30) -/
  fault : List FaultRecord
  /-- OUT (R31), oldest first -/
  out : List Event
  /-- MODEL: the host's items not yet taken, next first (notes/assumptions/2.md) -/
  input : List HostItem
  /-- MODEL: what the last operation returned (notes/assumptions/9.md) -/
  result : Result
  /-- MODEL: how many draws from OFS_DRAW have been made (notes/assumptions/5.md) -/
  draws : Nat
  /-- MODEL: R20's fixed arguments; no step changes them (notes/assumptions/4.md) -/
  params : Params
deriving DecidableEq, Repr

/-- Why the machine stops. -/
inductive Fault where
  /-- Raised by every operation and by step when FAULT is not empty: "the block takes no further step" (R246). Safe:
  the spec gives a faulted block no step. -/
  | halted
deriving DecidableEq, Repr

/-- Why the model gives no next state. -/
inductive Refusal where
  /-- Raised by exec for an instruction with no meaning yet. Safe. -/
  | notModelled (mnemonic : String)
  /-- Raised by the command meanings when SEQ ≠ IDLE and by step for a line while SEQ is READ_S or LIST_S: no command is
  accepted then (R27) and no LineRead() waits. Safe: the model gives no state where the spec gives no effect. -/
  | lineNotAwaited
deriving DecidableEq, Repr

/-- The power-on state (R35, R260) for given parameters and a given launch image MEM0. -/
def State.powerOn (p : Params) (mem0 : Memory) : State where
  addr := .unknown
  mode := .unconf
  wp := .asserted
  mem := mem0
  seq := .idle
  ofs := [none, none, none, none, none]
  lastmm := none
  fault := []
  out := []
  input := []
  result := .none
  draws := 0
  params := p

/-- The machine right after power-on with the default parameters and a memory that lists nothing
(notes/assumptions/3.md, notes/assumptions/4.md). -/
def State.reset : State := State.powerOn Params.default []

end Sys2Proof.Machine
end

