-- ==== Sys2Proof/Machine/Ops.lean ====
section
/-!
DEFINITION. The named operations over memory and state: MemRead and MemWrite, taking a fault, the driver primitives as a
session issues them, and the frames around a meaning (who may issue it, and what it returns).
-/

namespace Sys2Proof.Machine

/-! ### Memory (20_memory.md) -/

/-- What an address that is not listed reads as (notes/assumptions/3.md). -/
def Memory.unlisted : Nibble := 0#4

/-- MemRead(a, 1) (R52): the stored nibble, by the ideal-device decision. -/
def Memory.read : Memory → Nat → Nibble
  | [], _ => Memory.unlisted
  | (b, v) :: m, a => if b = a then v.setWidth 4 else Memory.read m a

/-- A cell in front of `m`, or no cell where the nibble is what an unlisted address reads as. -/
def Memory.cons (a : Nat) (v : Nibble) (m : Memory) : Memory :=
  if v = Memory.unlisted then m else (a, v.setWidth 8) :: m

/-- MemWrite(a, 1, v) (R53), keeping the canonical form. -/
def Memory.write : Memory → Nat → Nibble → Memory
  | [], a, v => Memory.cons a v []
  | (b, w) :: m, a, v =>
    if a < b then Memory.cons a v ((b, w) :: m)
    else if a = b then Memory.cons a v m
    else (b, w) :: Memory.write m a v

/-- A cell of the canonical form: an address of the space, a nibble, not what an unlisted address reads as. -/
def Memory.cellOk (c : Host.Cell) : Bool :=
  c.1 < Config.nAddr && c.2.toNat < 16 && c.2.setWidth 4 != Memory.unlisted

/-- The canonical form: addresses strictly rising, every cell in order. -/
def Memory.wf : Memory → Bool
  | [] => true
  | [c] => Memory.cellOk c
  | c :: d :: m => Memory.cellOk c && c.1 < d.1 && Memory.wf (d :: m)

/-- The nibbles at `a`, `a + 1`, …, `a + n - 1`. -/
def Memory.slice (m : Memory) (a n : Nat) : List Nibble := (List.range n).map (fun j => m.read (a + j))

/-- Store a list of nibbles at consecutive addresses. -/
def Memory.writeList : Memory → Nat → List Nibble → Memory
  | m, _, [] => m
  | m, a, v :: vs => Memory.writeList (m.write a v) (a + 1) vs

/-! ### Taking a fault, and sequences of operations -/

/-- Fault entry (R245): the record (code, operation, ADDR) joins FAULT; nothing else of the spec's state changes, and
nothing is returned. There is no return from a fault (R247). -/
def raiseFault (c : FaultCode) (op : FaultOp) (s : State) : State :=
  { s with fault := s.fault ++ [⟨c, op, s.addr⟩], result := .none }

/-- Emit(e) (R9): the event joins OUT. -/
def emit (e : Event) (s : State) : State := { s with out := s.out ++ [e] }

/-- How a piece of a session ends: with a value and the state after it, or with a fault taken, which ends the session's
sequence where it stands. -/
inductive Run (α : Type) where
  | done (a : α) (s : State)
  | raised (s : State)
deriving DecidableEq, Repr

/-- Go on after a piece that did not fault. -/
def Run.next {α β : Type} (r : Run α) (f : α → State → Run β) : Run β :=
  match r with
  | .done a s => f a s
  | .raised s => .raised s

/-- One piece for each element of a list, in order, until one faults. -/
def forEach {α : Type} (f : α → State → Run Unit) : List α → State → Run Unit
  | [], s => .done () s
  | x :: xs, s => (f x s).next fun _ t => forEach f xs t

/-! ### The driver primitives (40_driver.md), without the question who may issue them -/

/-- The operation word of READ_ADV (R71). -/
def readAdvWord : Byte := 0x60#8

/-- The operation word of WRITE_ADV #n (R71). -/
def writeAdvWord (n : Nibble) : Byte := 0x70#8 ||| n.setWidth 8

/-- RESET (R100). -/
def opReset (s : State) : State := { s with addr := .val 0 }

/-- MODE_READ (R101). -/
def opModeRead (s : State) : State := { s with mode := .read }

/-- MODE_WRITE (R102). -/
def opModeWrite (s : State) : State := { s with mode := .write }

/-- WP_ASSERT (R103). -/
def opWpAssert (s : State) : State := { s with wp := .asserted }

/-- WP_DEASSERT (R104). -/
def opWpDeassert (s : State) : State := { s with wp := .deasserted }

/-- READ_ADV (R105): the faults in the order of R244, else the nibble at ADDR and the advance. -/
def opReadAdv (s : State) : Run Nibble :=
  match s.addr with
  | .unknown => .raised (raiseFault .addrUnknown (.word readAdvWord) s)
  | .val a =>
    if s.mode ≠ .read then .raised (raiseFault .mode (.word readAdvWord) s)
    else if Config.nAddr ≤ a then .raised (raiseFault .pastEnd (.word readAdvWord) s)
    else .done (s.mem.read a) { s with addr := .val (a + 1) }

/-- WRITE_ADV #n (R106): the faults in the order of R244, else the store at ADDR and the advance. -/
def opWriteAdv (n : Nibble) (s : State) : Run Unit :=
  match s.addr with
  | .unknown => .raised (raiseFault .addrUnknown (.word (writeAdvWord n)) s)
  | .val a =>
    if s.mode ≠ .write then .raised (raiseFault .mode (.word (writeAdvWord n)) s)
    else if s.wp = .asserted then .raised (raiseFault .wp (.word (writeAdvWord n)) s)
    else if Config.nAddr ≤ a then .raised (raiseFault .pastEnd (.word (writeAdvWord n)) s)
    else .done () { s with mem := s.mem.write a n, addr := .val (a + 1) }

/-- `n` copies of READ_ADV, with the nibbles in order. -/
def readMany : Nat → State → Run (List Nibble)
  | 0, s => .done [] s
  | n + 1, s => (opReadAdv s).next fun v t => (readMany n t).next fun vs u => .done (v :: vs) u

/-- SKIP n (R107): `n` copies of READ_ADV, the nibbles discarded. -/
def opSkip (n : Nat) (s : State) : Run Unit := (readMany n s).next fun _ t => .done () t

/-- `FB[0..8] <- 9 × READ_ADV` (R160). -/
def readField (s : State) : Run FreqField := (readMany 9 s).next fun vs t => .done (fieldOfList vs) t

/-! ### Who may issue an operation, and what it returns -/

/-- The outcome of an operation that ran: it returned a value, or it took a fault. -/
def finish (r : Run Result) : Host.Outcome State Fault Refusal :=
  match r with
  | .done v s => .next { s with result := v }
  | .raised s => .next s

/-- A faulted block takes no further step (R246). -/
def whenRunning (s : State) (k : Host.Outcome State Fault Refusal) : Host.Outcome State Fault Refusal :=
  if s.fault = [] then k else .fault .halted

/-- An operation word from the host (R243): F_BUSY while a session owns the driver, else the operation. -/
def hostWord (w : Byte) (f : State → Run Result) (s : State) : Host.Outcome State Fault Refusal :=
  whenRunning s (if s.seq = .idle then finish (f s) else .next (raiseFault .busy (.word w) s))

/-- A command line from the host (R220, R224): read only while SEQ = IDLE. -/
def hostCommand (f : State → Run Result) (s : State) : Host.Outcome State Fault Refusal :=
  whenRunning s (if s.seq = .idle then finish (f s) else .refused .lineNotAwaited)

/-- A function of the sequencer (R89): a step of a session, not a word on an interface. -/
def sequencerStep (f : State → Run Result) (s : State) : Host.Outcome State Fault Refusal :=
  whenRunning s (finish (f s))

/-- A function of its operands alone: it reads and writes no state and returns its value. -/
def returnValue (v : Result) (s : State) : Host.Outcome State Fault Refusal :=
  sequencerStep (fun s => .done v s) s

end Sys2Proof.Machine
end

