-- ==== Sys2Proof/Machine/Render.lean ====
section
/-!
DEFINITION. Display texts (41_codec.md R135 to R138, 42_list.md R163, R166, 43_transport.md R197). The spec calls them
informative: no other rule depends on them. They are functions of the operands or of an event.
-/

namespace Sys2Proof.Machine

/-- The character of a decimal digit. -/
def digitChar (d : Nat) : Byte := BitVec.ofNat 8 (0x30 + d)

/-- The decimal digits of `n` in front of `acc`; `fuel` bounds the number of digits. -/
def decLoop : Nat → Nat → Line → Line
  | 0, _, acc => acc
  | fuel + 1, n, acc =>
    if n < 10 then digitChar n :: acc else decLoop fuel (n / 10) (digitChar (n % 10) :: acc)

/-- dec(n): the decimal numeral without padding (R135). -/
def dec (n : Nat) : Line := decLoop (n + 1) n []

/-- dec of an integer: `-1` is shown "-1" (R136). -/
def decInt (m : Int) : Line := if m < 0 then chr '-' :: dec m.natAbs else dec m.natAbs

/-- A numeral with leading zeros to `w` digits, wider if it needs more (R136). -/
def padded (w n : Nat) : Line := List.replicate (w - (dec n).length) (chr '0') ++ dec n

/-- The padded numeral of an integer; of a negative one the leading zeros stand behind the sign, so that it has `w` DIGITS
(DEDUCED from R136 "to 3 and 2 digits", notes/assumptions/8.md). -/
def paddedInt (w : Nat) (n : Int) : Line := if n < 0 then chr '-' :: padded w n.natAbs else padded w n.natAbs

/-- The text " kHz". -/
def kHzText : Line := [chr ' ', chr 'k', chr 'H', chr 'z']

/-- RENDER_OFFSET(LO, HI) (R135). -/
def renderOffset (lo hi : Nibble) : Line :=
  [if offsetSign hi then chr '-' else chr '+'] ++ dec (offsetTens hi).toNat ++ [chr '.'] ++ dec lo.toNat ++ kHzText

/-- `pad3(q) . pad2(r × 10 + d0)`, the kHz field of RENDER_FREQ for the quotient and the remainder of its accumulator
(R136). -/
def kHzNumerals (q r : Int) (d0 : Nibble) : Line :=
  paddedInt 3 q ++ [chr '.'] ++ paddedInt 2 (r * 10 + d0.toNat)

/-- The kHz field of RENDER_FREQ, from `a / 10` and `a % 10` (R136). R8 gives these for `a ≥ 0` only: for a negative `a` the
quotient and the remainder, and nothing else, are free values (DESIGN CHOICE, notes/assumptions/8.md). -/
def kHzField (a : Int) (d0 : Nibble) : Line :=
  if a < 0 then kHzNumerals (Config.negQuotient a) (Config.negRemainder a) d0
  else kHzNumerals (a.toNat / 10 : Nat) (a.toNat % 10 : Nat) d0

/-- RENDER_FREQ(r) (R136, R137). -/
def renderFreq : FreqResult → Line
  | .blank => Config.blankMarker
  | .freq m a d0 => decInt m ++ [chr ' '] ++ kHzField a d0 ++ kHzText

/-- The mode name of a mode code; a code ≥ 6 has none (R138, R168). -/
def modeName (m : Nibble) : Option Line :=
  match m.toNat with
  | 0 => some [chr 'L', chr 'S', chr 'B']
  | 1 => some [chr 'U', chr 'S', chr 'B']
  | 2 => some [chr 'A', chr 'M']
  | 3 => some [chr 'C', chr 'W']
  | 4 => some [chr 'R', chr 'T', chr 'T', chr 'Y']
  | 5 => some [chr 'F', chr 'M']
  | _ => none

/-- The label of a channel index: "VFO A:", "VFO B:", "MEM NN:" (R166). -/
def channelLabel (i : Int) : Line :=
  if i = -1 then [chr 'V', chr 'F', chr 'O', chr ' ', chr 'A', chr ':']
  else if i = 0 then [chr 'V', chr 'F', chr 'O', chr ' ', chr 'B', chr ':']
  else [chr 'M', chr 'E', chr 'M', chr ' '] ++ padded 2 i.natAbs ++ [chr ':']

/-- The text of a Verify report (R197). LASTMM = 1024, which only MISMATCH_ADDR = POST reaches, is outside LABEL's operands, so
its label is LABEL's free value (notes/assumptions/27.md). -/
def verifyText : Option Nat → Line
  | none => [chr 'V', chr 'e', chr 'r', chr 'i', chr 'f', chr 'y', chr ' ', chr 'O', chr 'K']
  | some a =>
    [chr 'V', chr 'e', chr 'r', chr 'i', chr 'f', chr 'y', chr ' ', chr 'e', chr 'r', chr 'r', chr 'o', chr 'r',
      chr ' ', chr 'a', chr 't', chr ' '] ++ label a

/-- The texts of an event, in order, without separators, which the spec does not give (R163, R166, R197, R137). A
record line is its text and the line end the transport appends (R76). -/
def eventTexts (p : Params) : Event → List Line
  | .line t => [t ++ p.lineEnd]
  | .ofsEntry k s t u =>
    (modeName (BitVec.ofNat 4 k)).toList ++ [renderOffset u (if s then t ||| 8#4 else t)]
  | .limit _ r => [renderFreq r]
  | .channel i m r => [channelLabel i] ++ (modeName m).toList ++ [renderFreq r]
  | .verifyResult a => [verifyText a]

end Sys2Proof.Machine
end

