-- ==== Sys2Proof/Machine/Codec.lean ====
section
/-!
DEFINITION. The functions of the frequency/offset codec (41_codec.md): they read no state and write no state; each returns
its value to the session that calls it.
-/

namespace Sys2Proof.Machine

/-- DECODE_OFFSET (R130). -/
def execDecodeOffset (lo hi : Nibble) (s : State) : Host.Outcome State Fault Refusal :=
  returnValue (.offset (decodeOffset lo hi)) s

/-- DECODE_FREQ (R131). -/
def execDecodeFreq (fb : FreqField) (ofs : Int) (s : State) : Host.Outcome State Fault Refusal :=
  returnValue (.freq (decodeFreq fb ofs)) s

/-- NORMALIZE (R132). -/
def execNormalize (m a : Int) (s : State) : Host.Outcome State Fault Refusal :=
  returnValue (.normalized (normalizePair m a).1 (normalizePair m a).2) s

/-- RENDER_OFFSET (R135). -/
def execRenderOffset (lo hi : Nibble) (s : State) : Host.Outcome State Fault Refusal :=
  returnValue (.text (renderOffset lo hi)) s

/-- RENDER_FREQ (R136, R137). -/
def execRenderFreq (r : FreqResult) (s : State) : Host.Outcome State Fault Refusal :=
  returnValue (.text (renderFreq r)) s

end Sys2Proof.Machine
end

