-- ==== Sys2Proof/Machine/Driver.lean ====
section
/-!
DEFINITION. The operation words (40_driver.md R100 to R106) and the reserved words (30_encoding.md R72), as the host
issues them (60_exceptions.md R243, R244).
-/

namespace Sys2Proof.Machine

/-- RESET (R100). -/
def execReset (s : State) : Host.Outcome State Fault Refusal :=
  hostWord 0x10#8 (fun s => .done .none (opReset s)) s

/-- MODE_READ (R101). -/
def execModeRead (s : State) : Host.Outcome State Fault Refusal :=
  hostWord 0x20#8 (fun s => .done .none (opModeRead s)) s

/-- MODE_WRITE (R102). -/
def execModeWrite (s : State) : Host.Outcome State Fault Refusal :=
  hostWord 0x30#8 (fun s => .done .none (opModeWrite s)) s

/-- WP_ASSERT (R103). -/
def execWpAssert (s : State) : Host.Outcome State Fault Refusal :=
  hostWord 0x40#8 (fun s => .done .none (opWpAssert s)) s

/-- WP_DEASSERT (R104). -/
def execWpDeassert (s : State) : Host.Outcome State Fault Refusal :=
  hostWord 0x50#8 (fun s => .done .none (opWpDeassert s)) s

/-- READ_ADV (R105): the nibble goes to the issuer. -/
def execReadAdv (s : State) : Host.Outcome State Fault Refusal :=
  hostWord readAdvWord (fun s => (opReadAdv s).next fun v t => .done (.nibble v) t) s

/-- WRITE_ADV #n (R106). -/
def execWriteAdv (n : Nibble) (s : State) : Host.Outcome State Fault Refusal :=
  hostWord (writeAdvWord n) (fun s => (opWriteAdv n s).next fun _ t => .done .none t) s

/-- A reserved word (R72): F_RESERVED, whatever SEQ is (R244). -/
def execOpwReserved (w : Byte) (s : State) : Host.Outcome State Fault Refusal :=
  whenRunning s (.next (raiseFault .reserved (.word w) s))

end Sys2Proof.Machine
end

