-- ==== Sys2Proof/Machine/Pseudo.lean ====
section
/-!
DEFINITION. The pseudo-operations SKIP and SEEK (40_driver.md R107, R108): the host issues the words they expand to
(Instr.expansion), one after the other, until one faults.
-/

namespace Sys2Proof.Machine

/-- SKIP n (R107); SKIP 0 issues no word. -/
def execSkip (n : Nat) (s : State) : Host.Outcome State Fault Refusal :=
  if n = 0 then returnValue .none s
  else hostWord readAdvWord (fun s => (opSkip n s).next fun _ t => .done .none t) s

/-- SEEK a (R108): RESET, then SKIP a. -/
def execSeek (a : Nat) (s : State) : Host.Outcome State Fault Refusal :=
  hostWord 0x10#8 (fun s => (opSkip a (opReset s)).next fun _ t => .done .none t) s

end Sys2Proof.Machine
end

