-- ==== Sys2Proof/Machine/Transport.lean ====
section
/-!
DEFINITION. The functions of the N2CBU transport codec (43_transport.md R180 to R191): characters, records, and the lines a
Program or Verify session reads. Those that reach the memory do it by the driver primitives.
-/

namespace Sys2Proof.Machine

/-- ENCODE_RECORD(A) (R182): 64 READ_ADV, and the record's text. -/
def opEncodeRecord (a : Nat) (s : State) : Run Line :=
  (readMany Config.recNibbles s).next fun vs t => .done (recordText t.params a vs) t

/-- PARSE_LINE(L) (R186): the nibbles, `none` for REJECT, or F_HEX; for a line that is no data line a free value (DESIGN
CHOICE, notes/assumptions/28.md). -/
def opParseLine (l : Line) (s : State) : Run (Option (List Nibble)) :=
  match if classify l = .data then parseLine s.params l else parseOther s.params l with
  | .data p => .done (some p) s
  | .reject => .done none s
  | .badHex => .raised (raiseFault .hex .parseLine s)

/-- Whether the counter has passed the last address, where PROGRAM_LINE writes no more (R187). -/
def pastLast : Counter → Bool
  | .unknown => false
  | .val a => Config.nAddr ≤ a

/-- One nibble of a Program line: `if ADDR ≤ 1023: WRITE_ADV p[j]` (R187). -/
def programNibble (v : Nibble) (s : State) : Run Unit :=
  if pastLast s.addr then .done () s else opWriteAdv v s

/-- The address LASTMM records for a compare begun at a counter (R188, MISMATCH_ADDR). -/
def mismatchAt (p : Params) : Counter → Option Nat
  | .unknown => none
  | .val a =>
    match p.mismatchAddr with
    | .pre => some a
    | .post => some (a + 1)

/-- One nibble of a Verify line (R188). -/
def verifyNibble (v : Nibble) (s : State) : Run Unit :=
  (opReadAdv s).next fun r t => .done () (if r = v then t else { t with lastmm := mismatchAt s.params s.addr })

/-- What PROGRAM_LINE and VERIFY_LINE share: classify, parse, and one operation for each nibble (R187, R188). -/
def opLine (f : Nibble → State → Run Unit) (l : Line) (s : State) : Run LineKind :=
  match classify l with
  | .endOfInput => .done .endOfInput s
  | .skip => .done .skip s
  | .data =>
    (opParseLine l s).next fun p t =>
      match p with
      | none => .done .skip t
      | some vs => (forEach f vs t).next fun _ u => .done .data u

/-- HEX_CHAR (R180). -/
def execHexChar (v : Nibble) (s : State) : Host.Outcome State Fault Refusal :=
  returnValue (.char (hexChar v)) s

/-- HEX_VALUE (R181). -/
def execHexValue (c : Byte) (s : State) : Host.Outcome State Fault Refusal :=
  returnValue (.hexVal (hexValue s.params.acceptLower c)) s

/-- ENCODE_RECORD (R182). -/
def execEncodeRecord (a : Nat) (s : State) : Host.Outcome State Fault Refusal :=
  sequencerStep (fun s => (opEncodeRecord a s).next fun t u => .done (.text t) u) s

/-- LABEL (R183). -/
def execLabel (a : Nat) (s : State) : Host.Outcome State Fault Refusal :=
  returnValue (.text (label a)) s

/-- QUALIFY_LINE (R184). -/
def execQualifyLine (l : Line) (s : State) : Host.Outcome State Fault Refusal :=
  returnValue (.truth (qualifyLine l)) s

/-- CLASSIFY (R185). -/
def execClassify (l : Line) (s : State) : Host.Outcome State Fault Refusal :=
  returnValue (.kind (classify l)) s

/-- PARSE_LINE (R186). -/
def execParseLine (l : Line) (s : State) : Host.Outcome State Fault Refusal :=
  sequencerStep (fun s => (opParseLine l s).next fun p t =>
    match p with
    | none => .done .rejected t
    | some vs => .done (.parsed vs) t) s

/-- PROGRAM_LINE (R187). -/
def execProgramLine (l : Line) (s : State) : Host.Outcome State Fault Refusal :=
  sequencerStep (fun s => (opLine programNibble l s).next fun k t => .done (.kind k) t) s

/-- VERIFY_LINE (R188). -/
def execVerifyLine (l : Line) (s : State) : Host.Outcome State Fault Refusal :=
  sequencerStep (fun s => (opLine verifyNibble l s).next fun k t => .done (.kind k) t) s

end Sys2Proof.Machine
end

