-- ==== Sys2Proof/Machine/Sessions.lean ====
section
/-!
DEFINITION. The command lines (44_commands.md R221, R222) and the four sessions they start: Read (43_transport.md R193),
Program (R194), Verify (R196, R197) and List (42_list.md R160 to R169). Read and List wait for nothing and are one step;
Program and Verify stop at LineRead(), and each of the host's lines is a step (notes/assumptions/1.md).
-/

namespace Sys2Proof.Machine

/-- The prologue RESET; MODE_READ of Read, Verify and List (R262). -/
def readPrologue (s : State) : State := opModeRead (opReset s)

/-- The prologue RESET; MODE_WRITE; WP_DEASSERT of Program (R194, R262). -/
def programPrologue (s : State) : State := opWpDeassert (opModeWrite (opReset s))

/-- `SEQ <- IDLE`, the end of a session. -/
def endSession (s : State) : State := { s with seq := .idle }

/-! ### Read -/

/-- `Emit(Line(ENCODE_RECORD(64 × b)))` (R193). -/
def dumpBlock (b : Nat) (s : State) : Run Unit :=
  (opEncodeRecord (Config.recNibbles * b) s).next fun t u => .done () (emit (.line t) u)

/-- The READ session (R193). -/
def readSession (s : State) : Run Result :=
  (forEach dumpBlock (List.range Config.recCount) (readPrologue { s with seq := .readS })).next
    fun _ t => .done .none (endSession t)

/-! ### Program and Verify -/

/-- The PROGRAM session up to its first LineRead() (R194). -/
def programStart (s : State) : State := programPrologue { s with seq := .programS }

/-- The VERIFY session up to its first LineRead() (R196). -/
def verifyStart (s : State) : State := readPrologue { s with seq := .verifyS, lastmm := none }

/-- The PROGRAM session after the END line: WP_ASSERT; MODE_READ; SEQ <- IDLE (R194). -/
def programEnd (s : State) : State := endSession (opModeRead (opWpAssert s))

/-- The VERIFY session after the END line: the report; SEQ <- IDLE (R196, R197). -/
def verifyEnd (s : State) : State := endSession (emit (.verifyResult s.lastmm) s)

/-- What the session in SEQ = `q` does after the operation a host item stands for: at END a Program or Verify session
ends; else it waits at LineRead() again. -/
def resume (q : SeqState) (t : State) : State :=
  if t.result = .kind .endOfInput then
    match q with
    | .programS => programEnd t
    | .verifyS => verifyEnd t
    | .idle => t
    | .readS => t
    | .listS => t
  else t

/-- The outcome of an operation, with what the session in SEQ = `q` does after it. -/
def resumeOutcome (q : SeqState) : Host.Outcome State Fault Refusal → Host.Outcome State Fault Refusal
  | .next t => .next (resume q t)
  | .fault r => .fault r
  | .refused r => .refused r

/-! ### List -/

/-- LO and HI of an offset entry from the nibble read first and the nibble read second (R80, OFS_NIBBLE_ORDER). -/
def offsetPair (o : NibbleOrder) (first second : Nibble) : Nibble × Nibble :=
  match o with
  | .loFirst => (first, second)
  | .hiFirst => (second, first)

/-- Offset entry k: `OFS[k] <- DECODE_OFFSET(LO, HI)` and its event (R162, R163). -/
def listOffset (k : Nat) (s : State) : Run Unit :=
  (opReadAdv s).next fun x t => (opReadAdv t).next fun y u =>
    let e := offsetPair u.params.ofsNibbleOrder x y
    .done () (emit (.ofsEntry k (offsetSign e.2) (offsetTens e.2) e.1)
      { u with ofs := u.ofs.set k (some (decodeOffset e.1 e.2)) })

/-- A band limit and its event (R164). -/
def listLimit (w : LimitId) (s : State) : Run Unit :=
  (readField s).next fun fb t => .done () (emit (.limit w (decodeFreq fb 0)) t)

/-- OFFSET_FOR(M): the table entry for M = 0..4, F_UNWRITTEN where it is UNWRITTEN (R28, R165); a fresh draw for M ≥ 5
(R169). -/
def offsetFor (m : Nibble) (s : State) : Run Int :=
  if m.toNat < Config.nOfs then
    match s.ofs.getD m.toNat none with
    | some v => .done v s
    | none => .raised (raiseFault .unwritten .offsetFor s)
  else .done (Config.ofsDraw s.draws) { s with draws := s.draws + 1 }

/-- DECODE_FREQ(FB, OFFSET_FOR(M)) (R165); a blank field uses no offset and draws nothing (R131, R169). -/
def channelFreq (m : Nibble) (fb : FreqField) (s : State) : Run FreqResult :=
  if isBlank fb then .done .blank s else (offsetFor m s).next fun o t => .done (decodeFreq fb o) t

/-- Channel record i and its event, with index i − 1 (R165). -/
def listChannel (i : Nat) (s : State) : Run Unit :=
  (opSkip Config.chFiller s).next fun _ t => (opReadAdv t).next fun m u => (readField u).next fun fb v =>
    (channelFreq m fb v).next fun r w => .done () (emit (.channel ((i : Int) - 1) m r) w)

/-- The walk from 0 to MS_OFS_END: the offset table (R161, R162). -/
def listOffsets (s : State) : Run Unit :=
  (opSkip Config.ofsBase s).next fun _ t => forEach listOffset (List.range Config.nOfs) t

/-- The walk from MS_OFS_END to MS_LIM_END: the band-limit pair, low then high (R161, R164). -/
def listLimits (s : State) : Run Unit :=
  (opSkip (Config.limBase - Config.msOfsEnd) s).next fun _ t => forEach listLimit [.low, .high] t

/-- The walk from MS_LIM_END to the end of the channel table (R161, R165). -/
def listChannels (s : State) : Run Unit :=
  (opSkip (Config.msChStart - Config.msLimEnd) s).next fun _ t => forEach listChannel (List.range Config.nChannels) t

/-- The LIST session (R160): one walk over the 1024 nibbles, with the offset table UNWRITTEN at its start (R28). -/
def listSession (s : State) : Run Result :=
  (listOffsets (readPrologue { s with seq := .listS, ofs := List.replicate Config.nOfs none })).next fun _ t =>
  (listLimits t).next fun _ u =>
  (listChannels u).next fun _ v =>
  (opSkip (Config.nAddr - Config.chEnd) v).next fun _ w => .done .none (endSession w)

/-! ### The command lines. Only the first character selects (R74), so a meaning does not read its line. -/

/-- CMD_READ (R221, R193). -/
def execCmdRead (_c : Line) (s : State) : Host.Outcome State Fault Refusal := hostCommand readSession s

/-- CMD_PROGRAM (R221, R194). -/
def execCmdProgram (_c : Line) (s : State) : Host.Outcome State Fault Refusal :=
  hostCommand (fun s => .done .none (programStart s)) s

/-- CMD_VERIFY (R221, R196). -/
def execCmdVerify (_c : Line) (s : State) : Host.Outcome State Fault Refusal :=
  hostCommand (fun s => .done .none (verifyStart s)) s

/-- CMD_LIST (R221, R160). -/
def execCmdList (_c : Line) (s : State) : Host.Outcome State Fault Refusal := hostCommand listSession s

/-- CMD_NOP (R222). -/
def execCmdNop (_c : Line) (s : State) : Host.Outcome State Fault Refusal :=
  hostCommand (fun s => .done .none s) s

end Sys2Proof.Machine
end

