-- ==== Sys2Proof/Machine/Dispatch.lean ====
section
/-!
DEFINITION. The dispatch of every instruction to its meaning, one arm per constructor of Instr.
-/

namespace Sys2Proof.Machine

def exec (i : Instr) (s : State) : Host.Outcome State Fault Refusal :=
  match i with
  | .reset => Sys2Proof.Machine.execReset s
  | .modeRead => Sys2Proof.Machine.execModeRead s
  | .modeWrite => Sys2Proof.Machine.execModeWrite s
  | .wpAssert => Sys2Proof.Machine.execWpAssert s
  | .wpDeassert => Sys2Proof.Machine.execWpDeassert s
  | .readAdv => Sys2Proof.Machine.execReadAdv s
  | .writeAdv n => Sys2Proof.Machine.execWriteAdv n s
  | .cmdRead c => Sys2Proof.Machine.execCmdRead c s
  | .cmdProgram c => Sys2Proof.Machine.execCmdProgram c s
  | .cmdVerify c => Sys2Proof.Machine.execCmdVerify c s
  | .cmdList c => Sys2Proof.Machine.execCmdList c s
  | .cmdNop c => Sys2Proof.Machine.execCmdNop c s
  | .opwReserved w => Sys2Proof.Machine.execOpwReserved w s
  | .decodeOffset lo hi => Sys2Proof.Machine.execDecodeOffset lo hi s
  | .decodeFreq fb ofs => Sys2Proof.Machine.execDecodeFreq fb ofs s
  | .normalize m a => Sys2Proof.Machine.execNormalize m a s
  | .renderOffset lo hi => Sys2Proof.Machine.execRenderOffset lo hi s
  | .renderFreq r => Sys2Proof.Machine.execRenderFreq r s
  | .hexChar v => Sys2Proof.Machine.execHexChar v s
  | .hexValue c => Sys2Proof.Machine.execHexValue c s
  | .encodeRecord a => Sys2Proof.Machine.execEncodeRecord a s
  | .label a => Sys2Proof.Machine.execLabel a s
  | .qualifyLine l => Sys2Proof.Machine.execQualifyLine l s
  | .classify l => Sys2Proof.Machine.execClassify l s
  | .parseLine l => Sys2Proof.Machine.execParseLine l s
  | .programLine l => Sys2Proof.Machine.execProgramLine l s
  | .verifyLine l => Sys2Proof.Machine.execVerifyLine l s
  | .skip n => Sys2Proof.Machine.execSkip n s
  | .seek a => Sys2Proof.Machine.execSeek a s

end Sys2Proof.Machine
end

