-- ==== Sys2Proof/WellFormed.lean ====
section
/-!
DEFINITION. Which instructions are well formed: the operand domains of the opcode table and of the rules.
-/

namespace Sys2Proof

/-- A command line whose first character matches a command code under the case mask 0xDF (R73). -/
def commandStarts (code : Byte) : Line → Bool
  | [] => false
  | c :: _ => c &&& 0xDF#8 = code

/-- A reserved operation word: OPC 0x0, OPC 0x8..0xF, or OPC 0x1..0x6 with NIB ≠ 0 (R72). -/
def wordReserved (w : Byte) : Bool :=
  let opc := w.toNat / 16
  let nib := w.toNat % 16
  opc = 0 || 8 ≤ opc || (opc ≤ 6 && nib ≠ 0)

/-- The operands lie in the domain the spec gives the row. -/
def Instr.wf : Instr → Bool
  | .reset => true
  | .modeRead => true
  | .modeWrite => true
  | .wpAssert => true
  | .wpDeassert => true
  | .readAdv => true
  | .writeAdv _ => true
  | .cmdRead c => commandStarts 0x52#8 c
  | .cmdProgram c => commandStarts 0x50#8 c
  | .cmdVerify c => commandStarts 0x56#8 c
  | .cmdList c => commandStarts 0x4C#8 c
  | .cmdNop c =>
    !(commandStarts 0x52#8 c || commandStarts 0x50#8 c || commandStarts 0x56#8 c || commandStarts 0x4C#8 c)
  | .opwReserved w => wordReserved w
  | .decodeOffset _ _ => true
  | .decodeFreq _ _ => true
  | .normalize _ _ => true
  | .renderOffset _ _ => true
  | .renderFreq _ => true
  | .hexChar _ => true
  | .hexValue _ => true
  | .encodeRecord a => a % Config.recNibbles = 0 && a < Config.nAddr
  | .label a => a < Config.nAddr
  | .qualifyLine _ => true
  | .classify _ => true
  | .parseLine l => Machine.classify l = .data
  | .programLine _ => true
  | .verifyLine _ => true
  | .skip _ => true
  | .seek a => a ≤ Config.nAddr

end Sys2Proof
end

