-- ==== Sys2Proof/Decode.lean ====
section
/-!
DEFINITION. The decoder of the two encoded interfaces (operation words, 30_encoding.md R70 to R72; command lines, R73 and
R74) and of the lines a waiting session reads (R77), the encoder, and the word the host's opcode table asks about.
-/

namespace Sys2Proof

/-- One row of R71: match, mask, and the operation a matching word stands for. -/
structure OpwRow where
  value : Byte
  mask : Byte
  build : Byte → Instr

/-- The operation codes of R71. -/
def opwRows : List OpwRow := [
  ⟨0x10#8, 0xFF#8, fun _ => .reset⟩,
  ⟨0x20#8, 0xFF#8, fun _ => .modeRead⟩,
  ⟨0x30#8, 0xFF#8, fun _ => .modeWrite⟩,
  ⟨0x40#8, 0xFF#8, fun _ => .wpAssert⟩,
  ⟨0x50#8, 0xFF#8, fun _ => .wpDeassert⟩,
  ⟨0x60#8, 0xFF#8, fun _ => .readAdv⟩,
  ⟨0x70#8, 0xF0#8, fun w => .writeAdv (w.setWidth 4)⟩]

/-- Whether a word matches a row. -/
def OpwRow.matches (r : OpwRow) (w : Byte) : Bool := w &&& r.mask = r.value

/-- The operation of a word: the row it matches, else reserved (R71, R72, R88). -/
def decodeWord (w : Byte) : Instr :=
  match opwRows.find? (fun r => r.matches w) with
  | some r => r.build w
  | none => .opwReserved w

/-- The session a command line selects, by its first character alone (R73, R74, R221). -/
def decodeCommand (l : Line) : Instr :=
  match l with
  | [] => .cmdNop l
  | c :: _ =>
    let x := c &&& 0xDF#8
    if x = 0x52#8 then .cmdRead l
    else if x = 0x50#8 then .cmdProgram l
    else if x = 0x56#8 then .cmdVerify l
    else if x = 0x4C#8 then .cmdList l
    else .cmdNop l

/-- What the block makes of a host item in a given SEQ: a word is an operation word whatever SEQ is; a line is a command
line while SEQ = IDLE and the answer to LineRead() in Program and Verify; no line is read in Read and List. -/
def decodeItem (q : SeqState) : HostItem → Option Instr
  | .word w => some (decodeWord w)
  | .line l =>
    match q with
    | .idle => some (decodeCommand l)
    | .programS => some (.programLine l)
    | .verifyS => some (.verifyLine l)
    | .readS => none
    | .listS => none

/-- The item that stands for an instruction on the host's interface. A function of the sequencer has none (R89), but for
the two that a host line starts; a pseudo-operation has none of its own (R87, see Instr.expansion). -/
def encode : Instr → Option HostItem
  | .reset => some (.word 0x10#8)
  | .modeRead => some (.word 0x20#8)
  | .modeWrite => some (.word 0x30#8)
  | .wpAssert => some (.word 0x40#8)
  | .wpDeassert => some (.word 0x50#8)
  | .readAdv => some (.word 0x60#8)
  | .writeAdv n => some (.word (0x70#8 ||| n.setWidth 8))
  | .opwReserved w => some (.word w)
  | .cmdRead c => some (.line c)
  | .cmdProgram c => some (.line c)
  | .cmdVerify c => some (.line c)
  | .cmdList c => some (.line c)
  | .cmdNop c => some (.line c)
  | .programLine l => some (.line l)
  | .verifyLine l => some (.line l)
  | .decodeOffset _ _ => none
  | .decodeFreq _ _ => none
  | .normalize _ _ => none
  | .renderOffset _ _ => none
  | .renderFreq _ => none
  | .hexChar _ => none
  | .hexValue _ => none
  | .encodeRecord _ => none
  | .label _ => none
  | .qualifyLine _ => none
  | .classify _ => none
  | .parseLine _ => none
  | .skip _ => none
  | .seek _ => none

/-- The SEQ in which an encoded instruction is heard. -/
def Instr.heardIn : Instr → SeqState
  | .programLine _ => .programS
  | .verifyLine _ => .verifyS
  | _ => .idle

/-- The operation words a pseudo-operation expands to (R87, R107, R108). -/
def Instr.expansion : Instr → List Byte
  | .skip n => List.replicate n 0x60#8
  | .seek a => 0x10#8 :: List.replicate a 0x60#8
  | _ => []

/-- The host item the opcode table's word stands for. The table's rows of the two 8-bit interfaces overlap and a word does
not say on which it arrives: it is taken as an operation word unless that is reserved and the character is a command
(notes/assumptions/14.md). -/
def tableItem (nbits w : Nat) : Option HostItem :=
  if nbits = 8 ∧ w < 256 then
    let b := BitVec.ofNat 8 w
    if wordReserved b && !(Instr.cmdNop [b]).wf then some (.line [b]) else some (.word b)
  else none

/-- The instruction the decoder reads from a word of the opcode table, bit 0 the least significant. -/
def decodeTableWord (nbits w : Nat) : Option Instr := (tableItem nbits w).bind (decodeItem .idle)

end Sys2Proof
end

