-- ==== Sys2Proof/Machine/HostEvents.lean ====
section
/-!
DEFINITION. What the outside world does to the machine between steps (60_exceptions.md R252, 20_memory.md R67): it sends an
item, or cycles the power. And taking the next item, which stands for the fetch: the block has no program counter and
fetches nothing from its memory (10_state.md R33, 20_memory.md R65).
-/

namespace Sys2Proof.Machine

/-- The host sends an item: it joins the items not yet taken (R252). -/
def State.send (s : State) (it : HostItem) : State := { s with input := s.input ++ [it] }

/-- A power cycle (R67, R260): MEM survives, and so do the parameters, which are no state (R20). Of the model's own fields,
`draws` goes on, so that a draw made after the cycle is as fresh as any (R20, R169; notes/assumptions/5.md), and `input` and
`result` are emptied (DESIGN CHOICE, notes/assumptions/2.md, notes/assumptions/9.md). -/
def State.powerCycle (s : State) : State := { State.powerOn s.params s.mem with draws := s.draws }

/-- Put an item where step takes its next one, in a block that will take it: FAULT empty, and SEQ = IDLE for a command
line. -/
def placeItem (it : HostItem) (s : State) : State :=
  match it with
  | .word w => { s with input := .word w :: s.input, fault := [] }
  | .line l => { s with input := .line l :: s.input, fault := [], seq := .idle }

/-- The word of the opcode table as the next item, where the table has it. -/
def placeTableWord (s : State) (nbits w : Nat) : State :=
  match tableItem nbits w with
  | some it => placeItem it s
  | none => s

end Sys2Proof.Machine
end

