-- ==== Sys2Proof/Machine/Step.lean ====
section
/-!
DEFINITION. One step of the block: take the host's next item and run the operation it stands for. A faulted block takes no
step (60_exceptions.md R246); a block with nothing to take waits (R252, 43_transport.md R194, R196).
-/

namespace Sys2Proof.Machine

def step (s : State) : Host.Outcome State Fault Refusal :=
  whenRunning s
    (match s.input with
    | [] => .next s
    | it :: rest =>
      match decodeItem s.seq it with
      | none => .refused .lineNotAwaited
      | some i => resumeOutcome s.seq (exec i { s with input := rest }))

def State.withFetchWord (s : State) (nbits w : Nat) : State := placeTableWord s nbits w

end Sys2Proof.Machine
end

