-- ==== Sys2Proof/Safety.lean ====
section
/-!
DEFINITION. What counts as a sound state and a safe run: the invariants of the block.
-/

namespace Sys2Proof.Machine

/-- The counter is UNKNOWN or 0..1024 (10_state.md R21). -/
def Counter.inRange : Counter → Bool
  | .unknown => true
  | .val a => a ≤ Config.nAddr

/-- The counter has been reset since power-on. -/
def Counter.known : Counter → Bool
  | .unknown => false
  | .val _ => true

/-- An offset entry is UNWRITTEN or in −85..+85 (10_state.md R28). -/
def ofsEntryOk : Option Int → Bool
  | none => true
  | some v => -85 ≤ v && v ≤ 85

/-- LASTMM is NONE or an address (10_state.md R29); under MISMATCH_ADDR = POST the advanced counter, so up to 1024
(notes/assumptions/16.md). -/
def lastmmOk (p : Params) : Option Nat → Bool
  | none => true
  | some a =>
    match p.mismatchAddr with
    | .pre => a < Config.nAddr
    | .post => 1 ≤ a && a ≤ Config.nAddr

/-- What SEQ says of a running block between steps: a Read or List session never stands still (R223), a Program session
waits in write mode with write protect de-asserted (R195), a Verify session waits in read mode (R196). -/
def seqOk (s : State) : Bool :=
  match s.seq with
  | .idle => true
  | .programS => s.mode = .write && s.wp = .deasserted && s.addr.known
  | .verifyS => s.mode = .read && s.addr.known
  | .readS => false
  | .listS => false

/-- The invariant of the block. -/
def State.Inv (s : State) : Prop :=
  Memory.wf s.mem = true ∧ s.addr.inRange = true ∧ s.ofs.length = Config.nOfs ∧ s.ofs.all ofsEntryOk = true ∧
    lastmmOk s.params s.lastmm = true ∧ s.fault.length ≤ 1 ∧ (s.fault = [] → seqOk s = true)

/-- A safe run takes no fault of the spec: FAULT is empty (60_exceptions.md R240, R246). -/
def State.safe (s : State) : Bool := s.fault = []

end Sys2Proof.Machine
end

