-- ==== Sys2Proof/Certificates/Slice0/Obligations.lean ====
section
/-!
DEFINITION. The statements for the provers, each a def Obligations.<Name> : Prop, and the vocabulary they are written in
(namespace Sys2Proof.Spec): the rules' own wording in terms of random reads of the memory and of plain numbers, so that
a statement does not repeat the definition it is about. What an operation returns to its issuer is read in State's field
`result`, the model's own way to hold it (notes/assumptions/9.md).
-/

open Sys2Proof Sys2Proof.Machine

namespace Sys2Proof.Spec

/-- An outcome of one operation. -/
abbrev Out := Host.Outcome State Fault Refusal

/-- The block accepts an operation of the host: FAULT is empty and no session owns the driver. -/
def Accepts (s : State) : Prop := s.fault = [] ∧ s.seq = .idle

/-- The state after a fault was taken (R241, R245): the record joins FAULT, nothing is returned, nothing else changes. -/
def faulted (c : FaultCode) (op : FaultOp) (s : State) : State :=
  { s with fault := s.fault ++ [⟨c, op, s.addr⟩], result := .none }

/-- The state after an operation that only returns a value. -/
def returning (v : Result) (s : State) : State := { s with result := v }

/-- An operation word without an operand: its effect where the block accepts it, F_BUSY while a session runs, and F_RESERVED
for the words with the same operation code and NIB ≠ 0 (R72, R243). -/
def PlainWord (i : Instr) (w : Byte) (effect : State → State) : Prop :=
  decodeWord w = i ∧
  (∀ s, Accepts s → exec i s = .next (returning .none (effect s))) ∧
  (∀ s, s.fault = [] → s.seq ≠ .idle → exec i s = .next (faulted .busy (.word w) s)) ∧
  (∀ (n : Nibble) s, n ≠ 0#4 → s.fault = [] →
    exec (decodeWord (w ||| n.setWidth 8)) s = .next (faulted .reserved (.word (w ||| n.setWidth 8)) s))

/-- Operations one after the other, as the host issues them; a block that has stopped takes none (R246). -/
def issueAll : List Instr → State → State
  | [], s => s
  | i :: is, s =>
    match exec i s with
    | .next t => issueAll is t
    | .fault _ => s
    | .refused _ => s

/-- How many nibbles an operation word moves. -/
def advances : Instr → Nat
  | .readAdv => 1
  | .writeAdv _ => 1
  | _ => 0

/-- The primitives of the driver but for RESET. -/
def isPrimitive : Instr → Bool
  | .modeRead | .modeWrite | .wpAssert | .wpDeassert | .readAdv | .writeAdv _ => true
  | _ => false

/-- The hex digit of a nibble, by the table of digits. -/
def hexDigit (v : Nibble) : Byte :=
  ("0123456789ABCDEF".toList.map chr).getD v.toNat 0#8

/-- The value of a character (R181), by ranges. -/
def hexOf (lower : Bool) (c : Byte) : Nat :=
  if chr '0' ≤ c ∧ c ≤ chr '9' then c.toNat - (chr '0').toNat
  else if chr 'A' ≤ c ∧ c ≤ chr 'F' then c.toNat - (chr 'A').toNat + 10
  else if lower = true ∧ chr 'a' ≤ c ∧ c ≤ chr 'f' then c.toNat - (chr 'a').toNat + 10
  else 0xFF

/-- Three hex digits, most significant first (R79). -/
def addressLabel (a : Nat) : Line :=
  [hexDigit (BitVec.ofNat 4 (a / 256)), hexDigit (BitVec.ofNat 4 (a / 16 % 16)), hexDigit (BitVec.ofNat 4 (a % 16))]

/-- The value of data character j of a line (R75, R186). -/
def charValue (p : Params) (l : Line) (j : Nat) : Nat := hexOf p.acceptLower (l.getD (5 + j) 0#8)

/-- A data line (R77). -/
def IsData (l : Line) : Prop := 69 ≤ l.length ∧ ∃ c ∈ l.head?, c ∈ [chr '0', chr '1', chr '2', chr '3']

/-- Every data character of the line is a hex digit. -/
def AllHex (p : Params) (l : Line) : Prop := ∀ j < 64, charValue p l j ≠ 0xFF

/-- The line is one whose nibbles the sessions use: every character a hex digit, or HEX_POLICY = CLAMP_4BIT (R186). -/
def Usable (p : Params) (l : Line) : Prop := IsData l ∧ (AllHex p l ∨ p.hexPolicy = .clamp4Bit)

/-- Nibble j of a usable line; HEX_BAD & 0xF is 0xF (R186). -/
def lineNibble (p : Params) (l : Line) (j : Nat) : Nibble := BitVec.ofNat 4 (charValue p l j)

/-- The operation word of the first WRITE_ADV of a Program line. -/
def firstWrite (p : Params) (l : Line) : FaultOp := .word (0x70#8 ||| (lineNibble p l 0).setWidth 8)

/-- The text of the record that starts at `a` (R76, R182). -/
def recordOf (p : Params) (m : Memory) (a : Nat) : Line :=
  addressLabel a ++ p.recordFiller ++ (List.range 64).map fun j => hexDigit (m.read (a + j))

/-- The decimal numeral of a number. -/
def decimal (n : Nat) : Line := (Nat.toDigits 10 n).map chr

/-- A decimal numeral with leading zeros to `w` digits. -/
def zeroPadded (w n : Nat) : Line := List.replicate (w - (decimal n).length) (chr '0') ++ decimal n

/-- The padded numeral of an integer: the sign, and the leading zeros behind it. -/
def signedPadded (w : Nat) (n : Int) : Line := (if n < 0 then [chr '-'] else []) ++ zeroPadded w n.natAbs

/-- " kHz". -/
def kHz : Line := " kHz".toList.map chr

/-- NORMALIZE in one case split (R132). -/
def normalized (m a : Int) : Int × Int :=
  if 10000 ≤ a then (m + 1, a - 10000) else if a < 0 then (m - 1, a + 10000) else (m, a)

/-- The value of an offset entry (R130). -/
def offsetValue (lo hi : Nibble) : Int :=
  if 8 ≤ hi.toNat then -((hi.toNat % 8 * 10 + lo.toNat : Nat) : Int) else ((hi.toNat % 8 * 10 + lo.toNat : Nat) : Int)

/-- The frequency of a field (R131). -/
def frequency (fb : FreqField) (ofs : Int) : FreqResult :=
  if fb.fb0 = 0xF#4 then .blank
  else
    let n := normalized (fb.fb6.toNat * 10 + fb.fb5.toNat)
      (fb.fb4.toNat * 1000 + fb.fb3.toNat * 100 + fb.fb2.toNat * 10 + fb.fb1.toNat + ofs)
    .freq n.1 n.2 fb.fb0

/-- The field at an address: FB[i] is the nibble at `a + i` (R81). -/
def fieldOf (m : Memory) (a : Nat) : FreqField :=
  ⟨m.read a, m.read (a + 1), m.read (a + 2), m.read (a + 3), m.read (a + 4), m.read (a + 5), m.read (a + 6),
    m.read (a + 7), m.read (a + 8)⟩

/-- LO of offset entry k (R80, OFS_NIBBLE_ORDER). -/
def entryLo (p : Params) (m : Memory) (k : Nat) : Nibble :=
  match p.ofsNibbleOrder with
  | .loFirst => m.read (0x06 + 2 * k)
  | .hiFirst => m.read (0x07 + 2 * k)

/-- HI of offset entry k (R80, OFS_NIBBLE_ORDER). -/
def entryHi (p : Params) (m : Memory) (k : Nat) : Nibble :=
  match p.ofsNibbleOrder with
  | .loFirst => m.read (0x07 + 2 * k)
  | .hiFirst => m.read (0x06 + 2 * k)

/-- The offset table of a memory image (R162). -/
def entryValue (p : Params) (m : Memory) (k : Nat) : Int := offsetValue (entryLo p m k) (entryHi p m k)

/-- The mode nibble of channel record i (R61). -/
def channelMode (m : Memory) (i : Nat) : Nibble := m.read (0x12A + 18 * i + 8)

/-- The frequency field of channel record i (R61). -/
def channelField (m : Memory) (i : Nat) : FreqField := fieldOf m (0x12A + 18 * i + 9)

/-- Whether channel record i draws an offset: it is not blank and its mode code has no table entry (R169). -/
def drawsOffset (m : Memory) (i : Nat) : Bool :=
  !decide ((channelField m i).fb0 = 0xF#4) && decide (5 ≤ (channelMode m i).toNat)

/-- How many draws the records before record i make. -/
def drawsBefore (m : Memory) (i : Nat) : Nat := ((List.range i).filter (drawsOffset m)).length

/-- The offset of channel record i, when the session had made `d` draws before it (R165, R169). -/
def channelOffset (p : Params) (m : Memory) (d i : Nat) : Int :=
  if (channelMode m i).toNat < 5 then entryValue p m (channelMode m i).toNat
  else Config.ofsDraw (d + drawsBefore m i)

/-- The 41 events of a List session over a memory image, by random access (R60, R61, R163 to R165). -/
def listEvents (p : Params) (m : Memory) (d : Nat) : List Event :=
  ((List.range 5).map fun k => .ofsEntry k (entryHi p m k).msb (entryHi p m k &&& 7#4) (entryLo p m k)) ++
  [.limit .low (frequency (fieldOf m 0x1B) 0), .limit .high (frequency (fieldOf m 0x24) 0)] ++
  (List.range 34).map fun i =>
    .channel ((i : Int) - 1) (channelMode m i) (frequency (channelField m i) (channelOffset p m d i))

/-- What is left of the host's items after the next one was taken. -/
def took (s : State) (rest : List HostItem) : State := { s with input := rest }

/-- A block whose host has sent a command line, some lines, and the empty line. -/
def withLines (t : State) (command : Line) (lines : List Line) : State :=
  { t with input := .line command :: (lines.map HostItem.line ++ [.line []]) }

/-- The operations of a host word, and PARSE_LINE: those that take a fault before any other effect. -/
def isSingle (i : Instr) : Bool :=
  match encode i, i with
  | some (.word _), _ => true
  | _, .parseLine _ => true
  | _, _ => false

/-- An outcome with another offset table. -/
def withOfs (o : List (Option Int)) : Out → Out
  | .next t => .next { t with ofs := o }
  | .fault r => .fault r
  | .refused r => .refused r

/-- The operations that never read the offset table (R170). -/
def bypassesInterpreter : Instr → Bool
  | .cmdRead _ | .cmdProgram _ | .cmdVerify _ | .programLine _ | .verifyLine _ | .encodeRecord _ => true
  | _ => false

end Sys2Proof.Spec

open Sys2Proof.Spec

/-! ### Driver operations (40_driver.md) -/

/-- R100: RESET sets ADDR to 0 and writes nothing else, in every mode, from every counter; it is idempotent; F_BUSY and
F_RESERVED as its rule says. -/
def Obligations.ResetClearsCounter : Prop :=
  PlainWord .reset 0x10#8 (fun s => { s with addr := .val 0 }) ∧
  ∀ s t, Accepts s → exec .reset s = .next t → exec .reset t = .next t

/-- R101: MODE_READ sets MODE to READ and writes nothing else, ADDR included. -/
def Obligations.ModeReadSetsReadMode : Prop := PlainWord .modeRead 0x20#8 (fun s => { s with mode := .read })

/-- R102: MODE_WRITE sets MODE to WRITE and writes nothing else, ADDR and WP included. -/
def Obligations.ModeWriteSetsWriteMode : Prop := PlainWord .modeWrite 0x30#8 (fun s => { s with mode := .write })

/-- R103, R104: WP_ASSERT and WP_DEASSERT set WP and write nothing else. -/
def Obligations.WriteProtectWordsSetLine : Prop :=
  PlainWord .wpAssert 0x40#8 (fun s => { s with wp := .asserted }) ∧
  PlainWord .wpDeassert 0x50#8 (fun s => { s with wp := .deasserted })

/-- R105: READ_ADV returns MEM[ADDR] and advances ADDR, writing nothing else; where it faults it returns nothing and does
not advance. At ADDR = 1023 it reads and gives ADDR = 1024. -/
def Obligations.ReadAdvReadsThenAdvances : Prop :=
  decodeWord 0x60#8 = .readAdv ∧
  (∀ s a, Accepts s → s.addr = .val a → s.mode = .read → a < 1024 →
    exec .readAdv s = .next { s with addr := .val (a + 1), result := .nibble (s.mem.read a) }) ∧
  (∀ s, Accepts s → s.addr = .unknown → exec .readAdv s = .next (faulted .addrUnknown (.word 0x60#8) s)) ∧
  (∀ s a, Accepts s → s.addr = .val a → s.mode ≠ .read → exec .readAdv s = .next (faulted .mode (.word 0x60#8) s)) ∧
  (∀ s, Accepts s → s.addr = .val 1024 → s.mode = .read →
    exec .readAdv s = .next (faulted .pastEnd (.word 0x60#8) s)) ∧
  (∀ s, s.fault = [] → s.seq ≠ .idle → exec .readAdv s = .next (faulted .busy (.word 0x60#8) s)) ∧
  (∀ (n : Nibble) s, n ≠ 0#4 → s.fault = [] →
    exec (decodeWord (0x60#8 ||| n.setWidth 8)) s = .next (faulted .reserved (.word (0x60#8 ||| n.setWidth 8)) s))

/-- R106: WRITE_ADV #n stores n at ADDR and advances ADDR; every other nibble reads as before and nothing else is written.
Where it faults it stores nothing and does not advance. No NIB value is reserved. -/
def Obligations.WriteAdvStoresThenAdvances : Prop :=
  ∀ n : Nibble,
  decodeWord (0x70#8 ||| n.setWidth 8) = .writeAdv n ∧
  (∀ s a, Accepts s → s.mem.wf = true → s.addr = .val a → s.mode = .write → s.wp = .deasserted → a < 1024 →
    ∃ m, exec (.writeAdv n) s = .next { s with mem := m, addr := .val (a + 1), result := .none } ∧
      ∀ b, m.read b = if b = a then n else s.mem.read b) ∧
  (∀ s, Accepts s → s.addr = .unknown →
    exec (.writeAdv n) s = .next (faulted .addrUnknown (.word (0x70#8 ||| n.setWidth 8)) s)) ∧
  (∀ s a, Accepts s → s.addr = .val a → s.mode ≠ .write →
    exec (.writeAdv n) s = .next (faulted .mode (.word (0x70#8 ||| n.setWidth 8)) s)) ∧
  (∀ s a, Accepts s → s.addr = .val a → s.mode = .write → s.wp = .asserted →
    exec (.writeAdv n) s = .next (faulted .wp (.word (0x70#8 ||| n.setWidth 8)) s)) ∧
  (∀ s, Accepts s → s.addr = .val 1024 → s.mode = .write → s.wp = .deasserted →
    exec (.writeAdv n) s = .next (faulted .pastEnd (.word (0x70#8 ||| n.setWidth 8)) s)) ∧
  (∀ s, s.fault = [] → s.seq ≠ .idle →
    exec (.writeAdv n) s = .next (faulted .busy (.word (0x70#8 ||| n.setWidth 8)) s))

/-- R72: a reserved word raises F_RESERVED, whatever SEQ is, and has no other effect. -/
def Obligations.ReservedWordsFault : Prop :=
  ∀ (w : Byte) s, (w.toNat / 16 = 0 ∨ 8 ≤ w.toNat / 16 ∨ (w.toNat / 16 ≤ 6 ∧ w.toNat % 16 ≠ 0)) → s.fault = [] →
    decodeWord w = .opwReserved w ∧ exec (.opwReserved w) s = .next (faulted .reserved (.word w) s)

/-- R243, R244: an operation word of the host while a session owns the driver raises F_BUSY, a reserved one F_RESERVED,
which comes first; nothing else happens. -/
def Obligations.HostWordsFaultDuringSession : Prop :=
  ∀ (w : Byte) s, s.fault = [] → s.seq ≠ .idle →
    exec (decodeWord w) s = .next (faulted (if wordReserved w then .reserved else .busy) (.word w) s)

/-- R107: SKIP n moves ADDR by n and writes nothing else; it faults as READ_ADV at the first copy that faults, and leaves
ADDR at the address of that copy. -/
def Obligations.SkipAdvancesByCount : Prop :=
  (∀ n s a, Accepts s → s.addr = .val a → s.mode = .read → a + n ≤ 1024 →
    exec (.skip n) s = .next { s with addr := .val (a + n), result := .none }) ∧
  (∀ n s a, Accepts s → s.addr = .val a → s.mode = .read → a ≤ 1024 → 1024 < a + n →
    exec (.skip n) s = .next (faulted .pastEnd (.word 0x60#8) { s with addr := .val 1024 })) ∧
  (∀ n s a, Accepts s → 0 < n → s.addr = .val a → s.mode ≠ .read →
    exec (.skip n) s = .next (faulted .mode (.word 0x60#8) s)) ∧
  (∀ n s, Accepts s → 0 < n → s.addr = .unknown → exec (.skip n) s = .next (faulted .addrUnknown (.word 0x60#8) s))

/-- R87, R107, R108: a pseudo-operation is the sequence of the words it expands to: issuing these one after the other ends
where the pseudo-operation ends, in every state, faults included; the nibbles that READ_ADV returned are discarded. -/
def Obligations.PseudoOperationsAreTheirExpansion : Prop :=
  ∀ i s, (∃ n, i = .skip n) ∨ (∃ a, i = .seek a ∧ a ≤ 1024) → s.fault = [] →
    exec i s = .next (returning .none (issueAll (i.expansion.map decodeWord) s))

/-- R108: SEEK a gives ADDR = a from anywhere in READ mode, and writes nothing else. -/
def Obligations.SeekReachesAddress : Prop :=
  (∀ a s, Accepts s → s.mode = .read → a ≤ 1024 →
    exec (.seek a) s = .next { s with addr := .val a, result := .none }) ∧
  (∀ s, Accepts s → exec (.seek 0) s = .next { s with addr := .val 0, result := .none })

/-- R112: after a sequence of primitives since a RESET that raised no fault, ADDR is the number of READ_ADV and WRITE_ADV in
the sequence, and that number is at most 1024. -/
def Obligations.CounterCountsAdvances : Prop :=
  ∀ is s, is.all isPrimitive = true → Accepts s → s.addr = .val 0 → (issueAll is s).fault = [] →
    (issueAll is s).addr = .val (is.map advances).sum ∧ (is.map advances).sum ≤ 1024

/-! ### Encodings (30_encoding.md) -/

/-- R71: the operation codes of format OPW, written out bit by bit. -/
def Obligations.OperationCodesDecode : Prop :=
  decodeWord 0b00010000#8 = .reset ∧ decodeWord 0b00100000#8 = .modeRead ∧ decodeWord 0b00110000#8 = .modeWrite ∧
  decodeWord 0b01000000#8 = .wpAssert ∧ decodeWord 0b01010000#8 = .wpDeassert ∧ decodeWord 0b01100000#8 = .readAdv ∧
  ∀ n : Nibble, decodeWord (0b01110000#8 ||| n.setWidth 8) = .writeAdv n

/-- R73: the first character of a command line, in either case, selects the session, whatever follows it. -/
def Obligations.CommandsSelectByFirstCharacter : Prop :=
  (∀ l, decodeCommand (chr 'R' :: l) = .cmdRead (chr 'R' :: l) ∧ decodeCommand (chr 'r' :: l) = .cmdRead (chr 'r' :: l)) ∧
  (∀ l, decodeCommand (chr 'P' :: l) = .cmdProgram (chr 'P' :: l) ∧
    decodeCommand (chr 'p' :: l) = .cmdProgram (chr 'p' :: l)) ∧
  (∀ l, decodeCommand (chr 'V' :: l) = .cmdVerify (chr 'V' :: l) ∧
    decodeCommand (chr 'v' :: l) = .cmdVerify (chr 'v' :: l)) ∧
  (∀ l, decodeCommand (chr 'L' :: l) = .cmdList (chr 'L' :: l) ∧ decodeCommand (chr 'l' :: l) = .cmdList (chr 'l' :: l))

/-- Decode and encode agree: what a well-formed instruction's item is decoded as, where it is heard, is the instruction, every
operand at every value. -/
def Obligations.DecodeOfEncodeIsIdentity : Prop :=
  ∀ i it, i.wf = true → encode i = some it → decodeItem i.heardIn it = some i

/-- R88: every decode is total, where a line can be read at all, and gives a well-formed instruction of which the item is
the encoding, so that no bit of an item is dropped. -/
def Obligations.EncodeOfDecodeIsIdentity : Prop :=
  (∀ q w, ∃ i, decodeItem q (.word w) = some i) ∧
  (∀ q l, q ≠ .readS → q ≠ .listS → ∃ i, decodeItem q (.line l) = some i) ∧
  (∀ q it i, decodeItem q it = some i → i.wf = true ∧ encode i = some it)

/-! ### Codec (41_codec.md) -/

/-- R130: DECODE_OFFSET gives (HI & 0b111) × 10 + LO, negated where HI ≥ 8, in −85..+85; nothing is written. -/
def Obligations.DecodeOffsetGivesSignedValue : Prop :=
  ∀ lo hi s, s.fault = [] →
    exec (.decodeOffset lo hi) s = .next (returning (.offset (offsetValue lo hi)) s) ∧
    -85 ≤ offsetValue lo hi ∧ offsetValue lo hi ≤ 85 ∧
    (lo.toNat ≤ 9 → -79 ≤ offsetValue lo hi ∧ offsetValue lo hi ≤ 79)

/-- R132: NORMALIZE makes at most one correction, a carry from 10000 on or a borrow below 0; nothing is written. -/
def Obligations.NormalizeCorrectsOnce : Prop :=
  ∀ m a s, s.fault = [] →
    exec (.normalize m a) s = .next (returning (.normalized (normalized m a).1 (normalized m a).2) s) ∧
    (-10000 ≤ a → a ≤ 19999 → 0 ≤ (normalized m a).2 ∧ (normalized m a).2 ≤ 9999)

/-- R131: DECODE_FREQ gives BLANK for FB[0] = 0xF, else the normalized sums and FB[0]; nothing is written. FB[7] and FB[8]
are not read. -/
def Obligations.DecodeFreqGivesFrequency : Prop :=
  (∀ fb ofs s, s.fault = [] → exec (.decodeFreq fb ofs) s = .next (returning (.freq (frequency fb ofs)) s)) ∧
  ∀ fb ofs (x y : Nibble) s, exec (.decodeFreq { fb with fb7 := x, fb8 := y } ofs) s = exec (.decodeFreq fb ofs) s

/-- R133: with an offset of the table every frequency has ACC in 0..9999 and MHZ in −1..166. -/
def Obligations.FrequencyRanges : Prop :=
  ∀ fb ofs s t m a d0, -85 ≤ ofs → ofs ≤ 85 → exec (.decodeFreq fb ofs) s = .next t → t.result = .freq (.freq m a d0) →
    0 ≤ a ∧ a ≤ 9999 ∧ -1 ≤ m ∧ m ≤ 166

/-- R134: an offset never changes the display digit D0, which is FB[0]. -/
def Obligations.OffsetNeverChangesDisplayDigit : Prop :=
  ∀ fb ofs s t m a d0, exec (.decodeFreq fb ofs) s = .next t → t.result = .freq (.freq m a d0) → d0 = fb.fb0

/-- R135: RENDER_OFFSET gives the sign from HI[3], the tens digit, a point, LO in decimal, " kHz"; nothing is written. -/
def Obligations.RenderOffsetText : Prop :=
  ∀ lo hi s, s.fault = [] →
    exec (.renderOffset lo hi) s = .next (returning (.text
      ((if 8 ≤ hi.toNat then [chr '-'] else [chr '+']) ++ decimal (hi.toNat % 8) ++ [chr '.'] ++ decimal lo.toNat ++ kHz)) s)

/-- R136, R137: RENDER_FREQ gives the MHz numeral, a space, the kHz field and " kHz" for an accumulator that is not negative,
and BLANK_MARKER for BLANK; nothing is written. For a negative accumulator R8 gives "/" and "%" no value: the text is R136's
for some quotient q and remainder r of that accumulator, the model's free values, whatever the MHz count and the display
digit; how a negative numeral is padded is the model's reading (notes/assumptions/8.md). -/
def Obligations.RenderFreqText : Prop :=
  (∀ (m a : Int) (d0 : Nibble) s, s.fault = [] → 0 ≤ a →
    exec (.renderFreq (.freq m a d0)) s = .next (returning (.text
      ((if m < 0 then [chr '-'] else []) ++ decimal m.natAbs ++ [chr ' '] ++ zeroPadded 3 (a.toNat / 10) ++ [chr '.'] ++
        zeroPadded 2 (a.toNat % 10 * 10 + d0.toNat) ++ kHz)) s)) ∧
  (∀ s, s.fault = [] → exec (.renderFreq .blank) s = .next (returning (.text Config.blankMarker) s)) ∧
  (∀ a : Int, a < 0 → ∃ q r : Int, ∀ (m : Int) (d0 : Nibble) s, s.fault = [] →
    exec (.renderFreq (.freq m a d0)) s = .next (returning (.text
      ((if m < 0 then [chr '-'] else []) ++ decimal m.natAbs ++ [chr ' '] ++ signedPadded 3 q ++ [chr '.'] ++
        signedPadded 2 (r * 10 + d0.toNat) ++ kHz)) s))

/-! ### Transport functions (43_transport.md) -/

/-- R180: HEX_CHAR gives '0'..'9' and 'A'..'F'; nothing is written. -/
def Obligations.HexCharGivesUppercaseDigit : Prop :=
  ∀ v s, s.fault = [] → exec (.hexChar v) s = .next (returning (.char (hexDigit v)) s)

/-- R181: HEX_VALUE gives the value of a hex digit, of a lowercase one where ACCEPT_LOWER, else 0xFF; nothing is written. -/
def Obligations.HexValueGivesValueOrSentinel : Prop :=
  ∀ c s, s.fault = [] → exec (.hexValue c) s = .next (returning (.hexVal (hexOf s.params.acceptLower c)) s)

/-- R183, R79: LABEL gives the three hex digits of an address, most significant first; nothing is written. -/
def Obligations.LabelGivesThreeDigits : Prop :=
  ∀ a s, s.fault = [] → a ≤ 0x3FF → exec (.label a) s = .next (returning (.text (addressLabel a)) s)

/-- R184, R185: QUALIFY_LINE tells the data lines, CLASSIFY the three kinds; nothing is written. -/
def Obligations.LinesAreClassified : Prop :=
  ∀ l s, s.fault = [] →
    (∃ b, exec (.qualifyLine l) s = .next (returning (.truth b) s) ∧ (b = true ↔ IsData l)) ∧
    (∃ k, exec (.classify l) s = .next (returning (.kind k) s) ∧ (k = .endOfInput ↔ l = []) ∧ (k = .data ↔ IsData l) ∧
      (k = .skip ↔ l ≠ [] ∧ ¬ IsData l))

/-- R186: PARSE_LINE gives the 64 nibbles of a data line; with a character that is no hex digit it gives REJECT, or the
values & 0xF, or raises F_HEX, as HEX_POLICY says; nothing else is written. -/
def Obligations.ParseLineFollowsHexPolicy : Prop :=
  ∀ l s, s.fault = [] → IsData l →
    (Usable s.params l →
      exec (.parseLine l) s = .next (returning (.parsed ((List.range 64).map (lineNibble s.params l))) s)) ∧
    (¬ AllHex s.params l → s.params.hexPolicy = .rejectLine → exec (.parseLine l) s = .next (returning .rejected s)) ∧
    (¬ AllHex s.params l → s.params.hexPolicy = .fault → exec (.parseLine l) s = .next (faulted .hex .parseLine s))

/-- R182: ENCODE_RECORD(A) at ADDR = A gives the 69 characters of the record and moves ADDR by 64, writing nothing else. -/
def Obligations.EncodeRecordBuildsLine : Prop :=
  ∀ a s, s.fault = [] → s.addr = .val a → a % 64 = 0 → a ≤ 0x3C0 → s.mode = .read →
    exec (.encodeRecord a) s = .next { s with addr := .val (a + 64), result := .text (recordOf s.params s.mem a) } ∧
    (recordOf s.params s.mem a).length = 69

/-- R187: PROGRAM_LINE of a data line writes nibble j at ADDR + j as far as address 1023 and drops the rest; ADDR moves with
the writes; every other nibble reads as before and nothing else is written. -/
def Obligations.ProgramLineWritesDataLine : Prop :=
  ∀ l s a, s.fault = [] → s.mem.wf = true → s.addr = .val a → a ≤ 1024 → s.mode = .write → s.wp = .deasserted →
    Usable s.params l →
    ∃ m, exec (.programLine l) s =
        .next { s with mem := m, addr := .val (min 1024 (a + 64)), result := .kind .data } ∧
      ∀ b, m.read b = if a ≤ b ∧ b < a + 64 ∧ b < 1024 then lineNibble s.params l (b - a) else s.mem.read b

/-- R188: VERIFY_LINE of a data line compares nibble j with MEM[ADDR + j], moves ADDR by 64, and leaves in LASTMM the address
of the last mismatch of the line, or what it held where every nibble matches; nothing else is written. R7: under
MISMATCH_ADDR = POST the address is the advanced counter's; that it is 1024 at the last address, beyond R29's range, is the
model's reading (notes/assumptions/16.md). -/
def Obligations.VerifyLineRecordsLastMismatch : Prop :=
  ∀ l s a, s.fault = [] → s.addr = .val a → a + 64 ≤ 1024 → s.mode = .read → Usable s.params l →
    ∃ x, exec (.verifyLine l) s = .next { s with addr := .val (a + 64), lastmm := x, result := .kind .data } ∧
      ((∀ j < 64, s.mem.read (a + j) = lineNibble s.params l j) → x = s.lastmm) ∧
      (∀ j < 64, s.mem.read (a + j) ≠ lineNibble s.params l j →
        (∀ k, j < k → k < 64 → s.mem.read (a + k) = lineNibble s.params l k) →
        x = some (match s.params.mismatchAddr with | .pre => a + j | .post => a + j + 1))

/-- R188, R245: VERIFY_LINE of a data line that reaches the end of the memory raises F_PAST_END at the first compare beyond
it, after the compares before it have completed: LASTMM holds the address of the last mismatch among them, or what it held
where they all match. The record names READ_ADV's word (notes/assumptions/10.md). R7: under MISMATCH_ADDR = POST the address
is the advanced counter's, 1024 at the last one, which is the model's reading (notes/assumptions/16.md). -/
def Obligations.VerifyLineFaultsPastEnd : Prop :=
  ∀ l s a, s.fault = [] → s.addr = .val a → a ≤ 1024 → 1024 < a + 64 → s.mode = .read → Usable s.params l →
    ∃ x, exec (.verifyLine l) s = .next (faulted .pastEnd (.word 0x60#8) { s with addr := .val 1024, lastmm := x }) ∧
      ((∀ j, a + j < 1024 → s.mem.read (a + j) = lineNibble s.params l j) → x = s.lastmm) ∧
      (∀ j, a + j < 1024 → s.mem.read (a + j) ≠ lineNibble s.params l j →
        (∀ k, j < k → a + k < 1024 → s.mem.read (a + k) = lineNibble s.params l k) →
        x = some (match s.params.mismatchAddr with | .pre => a + j | .post => a + j + 1))

/-- R185, R190: PROGRAM_LINE and VERIFY_LINE of a line that is no data line, or that HEX_POLICY rejects, change nothing and
return END or SKIP. -/
def Obligations.OtherLinesChangeNothing : Prop :=
  ∀ i l s, i = .programLine l ∨ i = .verifyLine l → s.fault = [] →
    (l = [] → exec i s = .next (returning (.kind .endOfInput) s)) ∧
    (l ≠ [] → ¬ IsData l → exec i s = .next (returning (.kind .skip) s)) ∧
    (IsData l → ¬ AllHex s.params l → s.params.hexPolicy = .rejectLine →
      exec i s = .next (returning (.kind .skip) s))

/-- R186, R244: under HEX_POLICY = FAULT a data line with a character that is no hex digit raises F_HEX before any nibble of it
is written or compared, whatever the counter, the mode and the write-protect line. -/
def Obligations.HexFaultPrecedesAccesses : Prop :=
  ∀ i l s, i = .programLine l ∨ i = .verifyLine l → s.fault = [] → IsData l → ¬ AllHex s.params l →
    s.params.hexPolicy = .fault → exec i s = .next (faulted .hex .parseLine s)

/-- R189: the label and the filler of an input line are not read: lines that agree on the first character and on the data
characters do the same. -/
def Obligations.LabelOfInputLineIsIgnored : Prop :=
  ∀ l l' s, IsData l → IsData l' → (∀ j < 64, l.getD (5 + j) 0#8 = l'.getD (5 + j) 0#8) →
    exec (.programLine l) s = exec (.programLine l') s ∧ exec (.verifyLine l) s = exec (.verifyLine l') s

/-- Outside the preconditions of R182, R187 and R188, where R187 lists no fault but F_HEX and R188 none but F_HEX and
F_PAST_END, it is the model's choice (notes/assumptions/20.md) that ENCODE_RECORD, PROGRAM_LINE and VERIFY_LINE do what their
pseudocode does and so fault as their first access that faults (R105, R106), that PROGRAM_LINE takes ADDR = UNKNOWN as not past
the end and so faults F_ADDR_UNKNOWN there, and that these functions run whatever SEQ is. That the record of an access that
the sequencer issues names its operation word is the model's choice too (notes/assumptions/10.md). -/
def Obligations.SequencerAccessesFault : Prop :=
  (∀ l s, s.fault = [] → Usable s.params l → s.addr = .unknown →
    exec (.programLine l) s = .next (faulted .addrUnknown (firstWrite s.params l) s) ∧
    exec (.verifyLine l) s = .next (faulted .addrUnknown (.word 0x60#8) s)) ∧
  (∀ l s a, s.fault = [] → Usable s.params l → s.addr = .val a → a < 1024 → s.mode ≠ .write →
    exec (.programLine l) s = .next (faulted .mode (firstWrite s.params l) s)) ∧
  (∀ l s a, s.fault = [] → Usable s.params l → s.addr = .val a → a < 1024 → s.mode = .write → s.wp = .asserted →
    exec (.programLine l) s = .next (faulted .wp (firstWrite s.params l) s)) ∧
  (∀ l s a, s.fault = [] → Usable s.params l → s.addr = .val a → s.mode ≠ .read →
    exec (.verifyLine l) s = .next (faulted .mode (.word 0x60#8) s)) ∧
  (∀ a s, s.fault = [] → s.addr = .unknown →
    exec (.encodeRecord a) s = .next (faulted .addrUnknown (.word 0x60#8) s)) ∧
  (∀ a b s, s.fault = [] → s.addr = .val b → s.mode ≠ .read →
    exec (.encodeRecord a) s = .next (faulted .mode (.word 0x60#8) s)) ∧
  (∀ a b s, s.fault = [] → s.addr = .val b → s.mode = .read → b ≤ 1024 → 1024 < b + 64 →
    exec (.encodeRecord a) s = .next (faulted .pastEnd (.word 0x60#8) { s with addr := .val 1024 }))

/-- What the model does where a function's precondition does not hold. Above 0x3FF the label is a free value, the same for
LABEL, ENCODE_RECORD and a Verify report, and everything else is as its rule says (notes/assumptions/27.md). PARSE_LINE of a
line that is no data line returns a free value, 64 nibbles or REJECT, the same for the same line and parameters, and writes
nothing (notes/assumptions/28.md). ENCODE_RECORD at another counter than A labels A and reads at the counter
(notes/assumptions/20.md). -/
def Obligations.OperandsOutsideTheirDomain : Prop :=
  (∀ a, 0x3FF < a → ∃ t : Line,
    (∀ s, s.fault = [] → exec (.label a) s = .next (returning (.text t) s)) ∧
    (∀ b s, s.fault = [] → s.addr = .val b → b + 64 ≤ 1024 → s.mode = .read →
      exec (.encodeRecord a) s = .next { s with
        addr := .val (b + 64),
        result := .text (t ++ s.params.recordFiller ++ (List.range 64).map fun j => hexDigit (s.mem.read (b + j))) }) ∧
    verifyText (some a) = "Verify error at ".toList.map chr ++ t) ∧
  (∀ p l, ¬ IsData l → ∃ v : Result, (v = .rejected ∨ ∃ vs : List Nibble, vs.length = 64 ∧ v = .parsed vs) ∧
    ∀ s, s.fault = [] → s.params = p → exec (.parseLine l) s = .next (returning v s)) ∧
  (∀ a b s, s.fault = [] → a ≤ 0x3FF → s.addr = .val b → b + 64 ≤ 1024 → s.mode = .read →
    exec (.encodeRecord a) s = .next { s with
      addr := .val (b + 64),
      result := .text (addressLabel a ++ s.params.recordFiller ++
        (List.range 64).map fun j => hexDigit (s.mem.read (b + j))) })

/-- R138, R166, R197: the display texts of mode codes, channel indices and Verify reports. -/
def Obligations.DisplayTexts : Prop :=
  (∀ m : Nibble, modeName m =
    (["LSB", "USB", "AM", "CW", "RTTY", "FM"][m.toNat]?).map fun t => t.toList.map chr) ∧
  channelLabel (-1) = "VFO A:".toList.map chr ∧ channelLabel 0 = "VFO B:".toList.map chr ∧
  (∀ n : Nat, 1 ≤ n → n ≤ 32 →
    channelLabel n = "MEM ".toList.map chr ++ zeroPadded 2 n ++ [chr ':']) ∧
  verifyText none = "Verify OK".toList.map chr ∧
  ∀ a ≤ 0x3FF, verifyText (some a) = "Verify error at ".toList.map chr ++ addressLabel a

/-! ### Sessions (42_list.md, 43_transport.md, 44_commands.md) -/

/-- R193: a Read session emits the 16 records of the memory, in order, ends with ADDR = 1024 and MODE = READ, and writes
nothing else. -/
def Obligations.ReadSessionDumpsMemory : Prop :=
  ∀ c s, Accepts s →
    exec (.cmdRead c) s = .next { s with
      addr := .val 1024, mode := .read, result := .none,
      out := s.out ++ (List.range 16).map fun b => .line (recordOf s.params s.mem (64 * b)) }

/-- R194: a Program session begins with RESET, MODE_WRITE, WP_DEASSERT and waits; each line but the empty one is PROGRAM_LINE;
the empty line ends it with WP_ASSERT, MODE_READ; nothing else is written. -/
def Obligations.ProgramSessionRuns : Prop :=
  (∀ c s, Accepts s → exec (.cmdProgram c) s = .next { s with
    seq := .programS, addr := .val 0, mode := .write, wp := .deasserted, result := .none }) ∧
  (∀ s l rest, s.fault = [] → s.seq = .programS → s.input = .line l :: rest → l ≠ [] →
    step s = exec (.programLine l) (took s rest)) ∧
  (∀ s rest, s.fault = [] → s.seq = .programS → s.input = .line [] :: rest →
    step s = .next { s with input := rest, wp := .asserted, mode := .read, seq := .idle, result := .kind .endOfInput })

/-- R196, R197: a Verify session clears LASTMM, begins with RESET, MODE_READ and waits; each line but the empty one is
VERIFY_LINE; the empty line ends it with the report of LASTMM; nothing else is written. -/
def Obligations.VerifySessionRuns : Prop :=
  (∀ c s, Accepts s → exec (.cmdVerify c) s = .next { s with
    seq := .verifyS, lastmm := none, addr := .val 0, mode := .read, result := .none }) ∧
  (∀ s l rest, s.fault = [] → s.seq = .verifyS → s.input = .line l :: rest → l ≠ [] →
    step s = exec (.verifyLine l) (took s rest)) ∧
  (∀ s rest, s.fault = [] → s.seq = .verifyS → s.input = .line [] :: rest →
    step s = .next { s with
      input := rest, out := s.out ++ [.verifyResult s.lastmm], seq := .idle, result := .kind .endOfInput })

/-- R160 to R169: a List session, one forward walk, emits the 41 events that the address map gives of the memory by random
access, fills OFS, ends with ADDR = 1024 and MODE = READ, and writes nothing else of the spec's state. A channel whose
mode has no table entry takes the next draw, whatever it is (notes/assumptions/5.md). Under OFS_NIBBLE_ORDER = HI_FIRST the
nibble read first is HI, which is the model's reading (notes/assumptions/22.md). -/
def Obligations.ListSessionDecodesMemoryMap : Prop :=
  ∀ c s, Accepts s →
    exec (.cmdList c) s = .next { s with
      addr := .val 1024, mode := .read, result := .none,
      ofs := (List.range 5).map fun k => some (entryValue s.params s.mem k),
      draws := s.draws + drawsBefore s.mem 34,
      out := s.out ++ listEvents s.params s.mem s.draws }

/-- R222: a command line whose first character is not R, P, V or L in either case, or that is empty, changes nothing and emits
nothing. -/
def Obligations.OtherCommandsDoNothing : Prop :=
  (∀ c l, c ∉ [chr 'R', chr 'r', chr 'P', chr 'p', chr 'V', chr 'v', chr 'L', chr 'l'] →
    decodeCommand (c :: l) = .cmdNop (c :: l)) ∧
  decodeCommand [] = .cmdNop [] ∧
  ∀ c s, Accepts s → exec (.cmdNop c) s = .next (returning .none s)

/-- R27, R243: no command line is accepted while a session owns the driver: the model refuses it by name
(notes/assumptions/13.md). -/
def Obligations.CommandsNotAcceptedDuringSession : Prop :=
  ∀ c s i, i = .cmdRead c ∨ i = .cmdProgram c ∨ i = .cmdVerify c ∨ i = .cmdList c ∨ i = .cmdNop c →
    s.fault = [] → s.seq ≠ .idle → exec i s = .refused .lineNotAwaited

/-- R262: a session's result does not depend on the ADDR or MODE a previous session left. -/
def Obligations.SessionsIgnorePriorCounterAndMode : Prop :=
  ∀ c s x y i, i = .cmdRead c ∨ i = .cmdProgram c ∨ i = .cmdVerify c ∨ i = .cmdList c → Accepts s →
    exec i { s with addr := x, mode := y } = exec i s

/-- R170: no Read, Program or Verify rule reads OFS: with another offset table they do the same and leave that table. -/
def Obligations.TransportIgnoresOffsetTable : Prop :=
  ∀ i s o, bypassesInterpreter i = true → exec i { s with ofs := o } = withOfs o (exec i s)

/-- R198: for every memory image, the 16 lines of a Read session fed to a Program session on any block, whatever its
memory and parameters, give that image, and fed to a Verify session on a block that holds the image they give a report
with no mismatch. That the 16 lines, the command and the empty line take 18 steps is the model's choice: one item of the
host is one step (notes/assumptions/1.md), and the items wait in a queue (notes/assumptions/2.md). -/
def Obligations.DumpProgramVerifyRoundTrip : Prop :=
  ∀ s c, Accepts s →
    ∃ (r : State) (lines : List Line), exec (.cmdRead c) s = .next r ∧ lines.length = 16 ∧ r.out = s.out ++ lines.map Event.line ∧
      (∀ t p, Accepts t → t.mem.wf = true → decodeCommand p = .cmdProgram p →
        ∃ u, core.run 18 (withLines t p lines) = .next u ∧
          (∀ a < 1024, u.mem.read a = s.mem.read a) ∧ Accepts u ∧ u.input = [] ∧ u.out = t.out) ∧
      (∀ t v, Accepts t → (∀ a < 1024, t.mem.read a = s.mem.read a) → decodeCommand v = .cmdVerify v →
        ∃ u, core.run 18 (withLines t v lines) = .next u ∧
          u.out = t.out ++ [.verifyResult none] ∧ u.mem = t.mem ∧ Accepts u ∧ u.input = [])

/-! ### The whole machine -/

/-- A step runs the decoded instruction: with the next item taken, a step is exec of what the item decodes to in the current
SEQ, and after a line of a Program or Verify session what the session does next. That one item of the host is one step, and
that a session's epilogue belongs to the step of the empty line, is the model's choice (notes/assumptions/1.md), as is the
queue the items wait in (notes/assumptions/2.md). A line where none is read is refused by name (notes/assumptions/13.md). -/
def Obligations.StepRunsDecodedItem : Prop :=
  (∀ s it rest i, s.fault = [] → s.input = it :: rest → decodeItem s.seq it = some i →
    step s = resumeOutcome s.seq (exec i (took s rest))) ∧
  (∀ s it rest i, s.fault = [] → s.seq = .idle → s.input = it :: rest → decodeItem .idle it = some i →
    step s = exec i (took s rest)) ∧
  (∀ s l rest, s.fault = [] → s.seq = .readS ∨ s.seq = .listS → s.input = .line l :: rest →
    step s = .refused .lineNotAwaited)

/-- R252: a block with no item to take waits: nothing changes, and this is no fault. -/
def Obligations.StepWaitsForHost : Prop := ∀ s, s.fault = [] → s.input = [] → step s = .next s

/-- R246: once FAULT is not empty, no operation, command or line is accepted: every step and every instruction stops. -/
def Obligations.FaultsAreSticky : Prop :=
  ∀ s, s.fault ≠ [] → step s = .fault .halted ∧ ∀ i, exec i s = .fault .halted

/-- R245: an operation word or PARSE_LINE that faults adds one record with the ADDR it found, and changes nothing else. -/
def Obligations.FaultEntryIsPrecise : Prop :=
  ∀ i s t, isSingle i = true → s.fault = [] → exec i s = .next t → t.fault ≠ [] →
    ∃ c op, t = { s with fault := [⟨c, op, s.addr⟩], result := .none }

/-- R260: the power-on values of the state, for every parameter choice and every launch image; the block then waits for the
host. What an unlisted nibble reads as, and the model's own fields, are the model's choice (notes/assumptions/3.md). -/
def Obligations.PowerOnState : Prop :=
  (∀ p m, (State.powerOn p m).addr = .unknown ∧ (State.powerOn p m).mode = .unconf ∧
    (State.powerOn p m).wp = .asserted ∧ (State.powerOn p m).mem = m ∧ (State.powerOn p m).seq = .idle ∧
    (State.powerOn p m).ofs = [none, none, none, none, none] ∧ (State.powerOn p m).lastmm = none ∧
    (State.powerOn p m).fault = [] ∧ (State.powerOn p m).out = [] ∧
    step (State.powerOn p m) = .next (State.powerOn p m)) ∧
  State.reset = State.powerOn Params.default []

/-- R67: across a power cycle MEM survives and every other element takes its power-on value. R20: the parameters stay. Of the
model's own fields the count of draws goes on, so that no draw is made twice (notes/assumptions/5.md). -/
def Obligations.PowerCycleKeepsMemory : Prop :=
  ∀ s : State, s.powerCycle.mem = s.mem ∧ s.powerCycle.addr = .unknown ∧ s.powerCycle.mode = .unconf ∧
    s.powerCycle.wp = .asserted ∧ s.powerCycle.seq = .idle ∧ s.powerCycle.ofs = [none, none, none, none, none] ∧
    s.powerCycle.lastmm = none ∧ s.powerCycle.fault = [] ∧ s.powerCycle.out = [] ∧
    s.powerCycle.params = s.params ∧ s.powerCycle.draws = s.draws

/-- The invariant holds at power-on, for every parameter choice and every canonical launch image, at State.reset, and after a
power cycle of any state whose memory is canonical. -/
def Obligations.PowerOnMeetsInvariant : Prop :=
  (∀ p m, Memory.wf m = true → (State.powerOn p m).Inv) ∧ State.reset.Inv ∧
    ∀ s : State, s.mem.wf = true → s.powerCycle.Inv

/-- Every instruction keeps the invariant. -/
def Obligations.ExecKeepsInvariant : Prop := ∀ i s t, s.Inv → exec i s = .next t → t.Inv

/-- R21, R27, R28, R29, R195, R223: every step keeps the invariant: the memory in its canonical form, the counter UNKNOWN or
0..1024, five offset entries each UNWRITTEN or in −85..+85, LASTMM an address, at most one fault record, and, while no
fault was taken, the block idle, or waiting in a Program session in write mode with write protect de-asserted, or
waiting in a Verify session in read mode. -/
def Obligations.StepKeepsInvariant : Prop := ∀ s t, s.Inv → step s = .next t → t.Inv

/-- R25, R106, R195: a step changes the memory only where write protect is de-asserted, the bus is in write mode, the counter
is known, and the block is idle or in a Program session. -/
def Obligations.MemoryChangesOnlyWhenUnprotected : Prop :=
  ∀ s t, step s = .next t → t.mem ≠ s.mem →
    s.wp = .deasserted ∧ s.mode = .write ∧ s.addr ≠ .unknown ∧ (s.seq = .idle ∨ s.seq = .programS)

/-- R31, R20, R261: a step only appends to OUT, never changes the parameters, and never makes a known counter unknown. The
count of draws, the model's own, never falls, so that no draw is made twice (notes/assumptions/5.md). -/
def Obligations.StepOnlyAppendsOutput : Prop :=
  ∀ s t, step s = .next t → s.out <+: t.out ∧ t.params = s.params ∧ (s.addr ≠ .unknown → t.addr ≠ .unknown) ∧
    s.draws ≤ t.draws
end

