-- ==== Sys2Proof/Laws/Memory.lean ====
section
/-!
SUPPORT. The memory: a read after a write, and that every operation keeps the canonical form.
-/

namespace Sys2Proof.Machine

@[simp] theorem Memory.read_nil (a : Nat) : Memory.read [] a = Memory.unlisted := rfl

theorem Memory.read_head (b : Nat) (w : Byte) (m : Memory) : Memory.read ((b, w) :: m) b = w.setWidth 4 := by
  simp [Memory.read]

theorem Memory.read_tail {b a : Nat} (w : Byte) (m : Memory) (h : b ≠ a) :
    Memory.read ((b, w) :: m) a = m.read a := by
  simp [Memory.read, h]

/-- Every address of a canonical memory above the first is greater: the tail says nothing of the head's address. -/
theorem Memory.wf_tail {c : Host.Cell} {m : Memory} (h : Memory.wf (c :: m) = true) : m.wf = true := by
  cases m with
  | nil => rfl
  | cons d m =>
    simp only [Memory.wf, Bool.and_eq_true] at h
    exact h.2

theorem Memory.wf_head {c : Host.Cell} {m : Memory} (h : Memory.wf (c :: m) = true) : Memory.cellOk c = true := by
  cases m with
  | nil => exact h
  | cons d m =>
    simp only [Memory.wf, Bool.and_eq_true] at h
    exact h.1.1

/-- Adding a good cell in front of a canonical memory all of whose addresses are greater. -/
theorem Memory.wf_cons {c : Host.Cell} {m : Memory} (hc : Memory.cellOk c = true) (hm : m.wf = true)
    (h : ∀ d ∈ m.head?, c.1 < d.1) : Memory.wf (c :: m) = true := by
  cases m with
  | nil => exact hc
  | cons d m => simp_all [Memory.wf]

/-- An address below every listed one is not listed. -/
theorem Memory.read_below {m : Memory} {a : Nat} (hm : m.wf = true) (h : ∀ d ∈ m.head?, a < d.1) :
    m.read a = Memory.unlisted := by
  induction m with
  | nil => rfl
  | cons c m ih =>
    obtain ⟨b, w⟩ := c
    have hb : a < b := by simpa using h
    rw [Memory.read_tail w m (by omega)]
    refine ih (Memory.wf_tail hm) fun d hd => ?_
    cases m with
    | nil => simp at hd
    | cons e m =>
      simp only [List.head?_cons, Option.mem_def, Option.some.injEq] at hd
      simp only [Memory.wf, Bool.and_eq_true, decide_eq_true_eq] at hm
      subst hd
      exact lt_trans hb hm.1.2

theorem Memory.setWidth_roundtrip (v : Nibble) : (v.setWidth 8).setWidth 4 = v := by
  revert v; decide

theorem Memory.cellOk_store {a : Nat} {v : Nibble} (ha : a < 1024) (hv : v ≠ Memory.unlisted) :
    Memory.cellOk (a, v.setWidth 8) = true := by
  have h16 : (v.setWidth 8).toNat < 16 := by clear hv; revert v; decide
  simp only [Memory.cellOk, Memory.setWidth_roundtrip, Config.nAddr, Bool.and_eq_true, decide_eq_true_eq, bne_iff_ne]
  exact ⟨⟨ha, h16⟩, hv⟩

theorem Memory.read_cons_same {a : Nat} {v : Nibble} {m : Memory} (hm : m.wf = true)
    (h : ∀ d ∈ m.head?, a < d.1) : (Memory.cons a v m).read a = v := by
  by_cases hv : v = Memory.unlisted
  · rw [Memory.cons, if_pos hv, Memory.read_below hm h, hv]
  · rw [Memory.cons, if_neg hv, Memory.read_head, Memory.setWidth_roundtrip]

theorem Memory.read_cons_other {a b : Nat} (v : Nibble) (m : Memory) (h : a ≠ b) :
    (Memory.cons a v m).read b = m.read b := by
  by_cases hv : v = Memory.unlisted
  · rw [Memory.cons, if_pos hv]
  · rw [Memory.cons, if_neg hv, Memory.read_tail _ _ h]

theorem Memory.cons_wf {a : Nat} {v : Nibble} {m : Memory} (ha : a < 1024) (hm : m.wf = true)
    (h : ∀ d ∈ m.head?, a < d.1) : (Memory.cons a v m).wf = true := by
  by_cases hv : v = Memory.unlisted
  · rwa [Memory.cons, if_pos hv]
  · rw [Memory.cons, if_neg hv]
    exact Memory.wf_cons (Memory.cellOk_store ha hv) hm h

/-- The tail of a canonical memory lists only greater addresses. -/
theorem Memory.head_lt {c : Host.Cell} {m : Memory} (h : Memory.wf (c :: m) = true) : ∀ d ∈ m.head?, c.1 < d.1 := by
  cases m with
  | nil => simp
  | cons d m =>
    simp only [Memory.wf, Bool.and_eq_true, decide_eq_true_eq] at h
    simpa using h.1.2

/-- MemRead after MemWrite at the same address gives the nibble written (R52, R53). -/
theorem Memory.read_write_same {m : Memory} (a : Nat) (v : Nibble) (hm : m.wf = true) : (m.write a v).read a = v := by
  induction m with
  | nil => exact Memory.read_cons_same rfl (by simp)
  | cons c m ih =>
    obtain ⟨b, w⟩ := c
    rw [Memory.write]
    split
    · next h => exact Memory.read_cons_same hm (by simpa using h)
    · split
      · next h => subst h; exact Memory.read_cons_same (Memory.wf_tail hm) (Memory.head_lt hm)
      · next h => rw [Memory.read_tail w _ (Ne.symm h)]; exact ih (Memory.wf_tail hm)

/-- MemWrite leaves every other address as it was (R53). -/
theorem Memory.read_write_other {m : Memory} {a b : Nat} (v : Nibble) (h : b ≠ a) : (m.write a v).read b = m.read b := by
  induction m with
  | nil => exact Memory.read_cons_other v [] h.symm
  | cons c m ih =>
    obtain ⟨d, w⟩ := c
    rw [Memory.write]
    split
    · exact Memory.read_cons_other v _ h.symm
    · split
      · next e => subst e; rw [Memory.read_cons_other v _ h.symm, Memory.read_tail w m h.symm]
      · by_cases e : d = b
        · subst e; rw [Memory.read_head, Memory.read_head]
        · rw [Memory.read_tail w _ e, Memory.read_tail w _ e, ih]

/-- The first address after a write is the least of the two. -/
theorem Memory.write_head {m : Memory} {a c : Nat} (v : Nibble) (h : ∀ d ∈ m.head?, c < d.1) (ha : c < a) :
    ∀ d ∈ (m.write a v).head?, c < d.1 ∨ m.wf = false := by
  intro d hd
  by_cases hm : m.wf = true
  · left
    cases m with
    | nil =>
      simp only [Memory.write, Memory.cons] at hd
      split at hd <;> simp_all
      subst hd; exact ha
    | cons e m =>
      obtain ⟨b, w⟩ := e
      have hb : c < b := by simpa using h
      simp only [Memory.write, Memory.cons] at hd
      split at hd
      · split at hd
        · simp at hd; subst hd; exact hb
        · simp at hd; subst hd; exact ha
      · split at hd
        · split at hd
          · exact lt_trans hb (Memory.head_lt hm d hd)
          · simp at hd; subst hd; exact ha
        · simp at hd; subst hd; exact hb
  · right; simpa using hm

/-- MemWrite keeps the canonical form. -/
theorem Memory.write_wf {m : Memory} {a : Nat} (v : Nibble) (ha : a < 1024) (hm : m.wf = true) :
    (m.write a v).wf = true := by
  induction m with
  | nil => exact Memory.cons_wf ha rfl (by simp)
  | cons c m ih =>
    obtain ⟨b, w⟩ := c
    rw [Memory.write]
    split
    · next h => exact Memory.cons_wf ha hm (by simpa using h)
    · next h1 =>
      split
      · next h => subst h; exact Memory.cons_wf ha (Memory.wf_tail hm) (Memory.head_lt hm)
      · next h2 =>
        refine Memory.wf_cons (Memory.wf_head hm) (ih (Memory.wf_tail hm)) fun d hd => ?_
        have := Memory.write_head v (Memory.head_lt hm) (by show b < a; omega) d hd
        simpa [Memory.wf_tail hm] using this

/-- Storing a list of nibbles that fits keeps the canonical form. -/
theorem Memory.writeList_wf {m : Memory} {a : Nat} (vs : List Nibble) (h : a + vs.length ≤ 1024) (hm : m.wf = true) :
    (m.writeList a vs).wf = true := by
  induction vs generalizing m a with
  | nil => exact hm
  | cons v vs ih =>
    simp only [List.length_cons] at h
    exact ih (by omega) (Memory.write_wf v (by omega) hm)

/-- What an address holds after a list of nibbles was stored. -/
theorem Memory.read_writeList {m : Memory} {a : Nat} (vs : List Nibble) (b : Nat) (h : a + vs.length ≤ 1024)
    (hm : m.wf = true) :
    (m.writeList a vs).read b = if a ≤ b ∧ b < a + vs.length then vs.getD (b - a) 0#4 else m.read b := by
  induction vs generalizing m a with
  | nil => simp [Memory.writeList]
  | cons v vs ih =>
    simp only [List.length_cons] at h ⊢
    rw [Memory.writeList, ih (by omega) (Memory.write_wf v (by omega) hm)]
    by_cases hb : b = a
    · subst hb
      simp [Memory.read_write_same b v hm]
    · rw [Memory.read_write_other v hb]
      by_cases h1 : a + 1 ≤ b ∧ b < a + 1 + vs.length
      · rw [if_pos h1, if_pos (by omega)]
        obtain ⟨k, rfl⟩ : ∃ k, b = a + 1 + k := ⟨b - (a + 1), by omega⟩
        simp [show a + 1 + k - a = k + 1 by omega]
      · rw [if_neg h1, if_neg (by omega)]

/-- The memory of the reset state is canonical. -/
theorem Memory.reset_wf : Memory.wf State.reset.mem = true := rfl

@[simp] theorem Memory.slice_length (m : Memory) (a n : Nat) : (m.slice a n).length = n := by simp [Memory.slice]

@[simp] theorem Memory.slice_zero (m : Memory) (a : Nat) : m.slice a 0 = [] := rfl

theorem Memory.slice_succ (m : Memory) (a n : Nat) : m.slice a (n + 1) = m.read a :: m.slice (a + 1) n := by
  simp [Memory.slice, List.range_succ_eq_map, Function.comp_def, Nat.add_assoc, Nat.add_comm 1]

theorem Memory.slice_getD (m : Memory) {a n j : Nat} (h : j < n) : (m.slice a n).getD j 0#4 = m.read (a + j) := by
  simp [Memory.slice, List.getD, List.getElem?_map, List.getElem?_range h]

end Sys2Proof.Machine
end

