-- ==== Sys2Proof/Laws/State.lean ====
section
/-!
SUPPORT. One lemma per field of State for every named update of it, true by rfl.
-/

namespace Sys2Proof.Machine

@[simp] theorem raiseFault_addr (c : FaultCode) (op : FaultOp) (s : State) : (raiseFault c op s).addr = s.addr := rfl
@[simp] theorem raiseFault_mode (c : FaultCode) (op : FaultOp) (s : State) : (raiseFault c op s).mode = s.mode := rfl
@[simp] theorem raiseFault_wp (c : FaultCode) (op : FaultOp) (s : State) : (raiseFault c op s).wp = s.wp := rfl
@[simp] theorem raiseFault_mem (c : FaultCode) (op : FaultOp) (s : State) : (raiseFault c op s).mem = s.mem := rfl
@[simp] theorem raiseFault_seq (c : FaultCode) (op : FaultOp) (s : State) : (raiseFault c op s).seq = s.seq := rfl
@[simp] theorem raiseFault_ofs (c : FaultCode) (op : FaultOp) (s : State) : (raiseFault c op s).ofs = s.ofs := rfl
@[simp] theorem raiseFault_lastmm (c : FaultCode) (op : FaultOp) (s : State) : (raiseFault c op s).lastmm = s.lastmm := rfl
@[simp] theorem raiseFault_fault (c : FaultCode) (op : FaultOp) (s : State) : (raiseFault c op s).fault = s.fault ++ [⟨c, op, s.addr⟩] := rfl
@[simp] theorem raiseFault_out (c : FaultCode) (op : FaultOp) (s : State) : (raiseFault c op s).out = s.out := rfl
@[simp] theorem raiseFault_input (c : FaultCode) (op : FaultOp) (s : State) : (raiseFault c op s).input = s.input := rfl
@[simp] theorem raiseFault_result (c : FaultCode) (op : FaultOp) (s : State) : (raiseFault c op s).result = .none := rfl
@[simp] theorem raiseFault_draws (c : FaultCode) (op : FaultOp) (s : State) : (raiseFault c op s).draws = s.draws := rfl
@[simp] theorem raiseFault_params (c : FaultCode) (op : FaultOp) (s : State) : (raiseFault c op s).params = s.params := rfl

@[simp] theorem emit_addr (e : Event) (s : State) : (emit e s).addr = s.addr := rfl
@[simp] theorem emit_mode (e : Event) (s : State) : (emit e s).mode = s.mode := rfl
@[simp] theorem emit_wp (e : Event) (s : State) : (emit e s).wp = s.wp := rfl
@[simp] theorem emit_mem (e : Event) (s : State) : (emit e s).mem = s.mem := rfl
@[simp] theorem emit_seq (e : Event) (s : State) : (emit e s).seq = s.seq := rfl
@[simp] theorem emit_ofs (e : Event) (s : State) : (emit e s).ofs = s.ofs := rfl
@[simp] theorem emit_lastmm (e : Event) (s : State) : (emit e s).lastmm = s.lastmm := rfl
@[simp] theorem emit_fault (e : Event) (s : State) : (emit e s).fault = s.fault := rfl
@[simp] theorem emit_out (e : Event) (s : State) : (emit e s).out = s.out ++ [e] := rfl
@[simp] theorem emit_input (e : Event) (s : State) : (emit e s).input = s.input := rfl
@[simp] theorem emit_result (e : Event) (s : State) : (emit e s).result = s.result := rfl
@[simp] theorem emit_draws (e : Event) (s : State) : (emit e s).draws = s.draws := rfl
@[simp] theorem emit_params (e : Event) (s : State) : (emit e s).params = s.params := rfl

@[simp] theorem opReset_addr (s : State) : (opReset s).addr = .val 0 := rfl
@[simp] theorem opReset_mode (s : State) : (opReset s).mode = s.mode := rfl
@[simp] theorem opReset_wp (s : State) : (opReset s).wp = s.wp := rfl
@[simp] theorem opReset_mem (s : State) : (opReset s).mem = s.mem := rfl
@[simp] theorem opReset_seq (s : State) : (opReset s).seq = s.seq := rfl
@[simp] theorem opReset_ofs (s : State) : (opReset s).ofs = s.ofs := rfl
@[simp] theorem opReset_lastmm (s : State) : (opReset s).lastmm = s.lastmm := rfl
@[simp] theorem opReset_fault (s : State) : (opReset s).fault = s.fault := rfl
@[simp] theorem opReset_out (s : State) : (opReset s).out = s.out := rfl
@[simp] theorem opReset_input (s : State) : (opReset s).input = s.input := rfl
@[simp] theorem opReset_result (s : State) : (opReset s).result = s.result := rfl
@[simp] theorem opReset_draws (s : State) : (opReset s).draws = s.draws := rfl
@[simp] theorem opReset_params (s : State) : (opReset s).params = s.params := rfl

@[simp] theorem opModeRead_addr (s : State) : (opModeRead s).addr = s.addr := rfl
@[simp] theorem opModeRead_mode (s : State) : (opModeRead s).mode = .read := rfl
@[simp] theorem opModeRead_wp (s : State) : (opModeRead s).wp = s.wp := rfl
@[simp] theorem opModeRead_mem (s : State) : (opModeRead s).mem = s.mem := rfl
@[simp] theorem opModeRead_seq (s : State) : (opModeRead s).seq = s.seq := rfl
@[simp] theorem opModeRead_ofs (s : State) : (opModeRead s).ofs = s.ofs := rfl
@[simp] theorem opModeRead_lastmm (s : State) : (opModeRead s).lastmm = s.lastmm := rfl
@[simp] theorem opModeRead_fault (s : State) : (opModeRead s).fault = s.fault := rfl
@[simp] theorem opModeRead_out (s : State) : (opModeRead s).out = s.out := rfl
@[simp] theorem opModeRead_input (s : State) : (opModeRead s).input = s.input := rfl
@[simp] theorem opModeRead_result (s : State) : (opModeRead s).result = s.result := rfl
@[simp] theorem opModeRead_draws (s : State) : (opModeRead s).draws = s.draws := rfl
@[simp] theorem opModeRead_params (s : State) : (opModeRead s).params = s.params := rfl

@[simp] theorem opModeWrite_addr (s : State) : (opModeWrite s).addr = s.addr := rfl
@[simp] theorem opModeWrite_mode (s : State) : (opModeWrite s).mode = .write := rfl
@[simp] theorem opModeWrite_wp (s : State) : (opModeWrite s).wp = s.wp := rfl
@[simp] theorem opModeWrite_mem (s : State) : (opModeWrite s).mem = s.mem := rfl
@[simp] theorem opModeWrite_seq (s : State) : (opModeWrite s).seq = s.seq := rfl
@[simp] theorem opModeWrite_ofs (s : State) : (opModeWrite s).ofs = s.ofs := rfl
@[simp] theorem opModeWrite_lastmm (s : State) : (opModeWrite s).lastmm = s.lastmm := rfl
@[simp] theorem opModeWrite_fault (s : State) : (opModeWrite s).fault = s.fault := rfl
@[simp] theorem opModeWrite_out (s : State) : (opModeWrite s).out = s.out := rfl
@[simp] theorem opModeWrite_input (s : State) : (opModeWrite s).input = s.input := rfl
@[simp] theorem opModeWrite_result (s : State) : (opModeWrite s).result = s.result := rfl
@[simp] theorem opModeWrite_draws (s : State) : (opModeWrite s).draws = s.draws := rfl
@[simp] theorem opModeWrite_params (s : State) : (opModeWrite s).params = s.params := rfl

@[simp] theorem opWpAssert_addr (s : State) : (opWpAssert s).addr = s.addr := rfl
@[simp] theorem opWpAssert_mode (s : State) : (opWpAssert s).mode = s.mode := rfl
@[simp] theorem opWpAssert_wp (s : State) : (opWpAssert s).wp = .asserted := rfl
@[simp] theorem opWpAssert_mem (s : State) : (opWpAssert s).mem = s.mem := rfl
@[simp] theorem opWpAssert_seq (s : State) : (opWpAssert s).seq = s.seq := rfl
@[simp] theorem opWpAssert_ofs (s : State) : (opWpAssert s).ofs = s.ofs := rfl
@[simp] theorem opWpAssert_lastmm (s : State) : (opWpAssert s).lastmm = s.lastmm := rfl
@[simp] theorem opWpAssert_fault (s : State) : (opWpAssert s).fault = s.fault := rfl
@[simp] theorem opWpAssert_out (s : State) : (opWpAssert s).out = s.out := rfl
@[simp] theorem opWpAssert_input (s : State) : (opWpAssert s).input = s.input := rfl
@[simp] theorem opWpAssert_result (s : State) : (opWpAssert s).result = s.result := rfl
@[simp] theorem opWpAssert_draws (s : State) : (opWpAssert s).draws = s.draws := rfl
@[simp] theorem opWpAssert_params (s : State) : (opWpAssert s).params = s.params := rfl

@[simp] theorem opWpDeassert_addr (s : State) : (opWpDeassert s).addr = s.addr := rfl
@[simp] theorem opWpDeassert_mode (s : State) : (opWpDeassert s).mode = s.mode := rfl
@[simp] theorem opWpDeassert_wp (s : State) : (opWpDeassert s).wp = .deasserted := rfl
@[simp] theorem opWpDeassert_mem (s : State) : (opWpDeassert s).mem = s.mem := rfl
@[simp] theorem opWpDeassert_seq (s : State) : (opWpDeassert s).seq = s.seq := rfl
@[simp] theorem opWpDeassert_ofs (s : State) : (opWpDeassert s).ofs = s.ofs := rfl
@[simp] theorem opWpDeassert_lastmm (s : State) : (opWpDeassert s).lastmm = s.lastmm := rfl
@[simp] theorem opWpDeassert_fault (s : State) : (opWpDeassert s).fault = s.fault := rfl
@[simp] theorem opWpDeassert_out (s : State) : (opWpDeassert s).out = s.out := rfl
@[simp] theorem opWpDeassert_input (s : State) : (opWpDeassert s).input = s.input := rfl
@[simp] theorem opWpDeassert_result (s : State) : (opWpDeassert s).result = s.result := rfl
@[simp] theorem opWpDeassert_draws (s : State) : (opWpDeassert s).draws = s.draws := rfl
@[simp] theorem opWpDeassert_params (s : State) : (opWpDeassert s).params = s.params := rfl

@[simp] theorem endSession_addr (s : State) : (endSession s).addr = s.addr := rfl
@[simp] theorem endSession_mode (s : State) : (endSession s).mode = s.mode := rfl
@[simp] theorem endSession_wp (s : State) : (endSession s).wp = s.wp := rfl
@[simp] theorem endSession_mem (s : State) : (endSession s).mem = s.mem := rfl
@[simp] theorem endSession_seq (s : State) : (endSession s).seq = .idle := rfl
@[simp] theorem endSession_ofs (s : State) : (endSession s).ofs = s.ofs := rfl
@[simp] theorem endSession_lastmm (s : State) : (endSession s).lastmm = s.lastmm := rfl
@[simp] theorem endSession_fault (s : State) : (endSession s).fault = s.fault := rfl
@[simp] theorem endSession_out (s : State) : (endSession s).out = s.out := rfl
@[simp] theorem endSession_input (s : State) : (endSession s).input = s.input := rfl
@[simp] theorem endSession_result (s : State) : (endSession s).result = s.result := rfl
@[simp] theorem endSession_draws (s : State) : (endSession s).draws = s.draws := rfl
@[simp] theorem endSession_params (s : State) : (endSession s).params = s.params := rfl

end Sys2Proof.Machine
end

