-- ==== Sys2Proof/Laws/Ops.lean ====
section
/-!
SUPPORT. One lemma per shared operation of Machine/Ops.lean that says what it does: the frames around a meaning, the
accesses, the walks.
-/

namespace Sys2Proof.Machine

section Frames
variable {α β : Type}

@[simp] theorem Run.next_done (a : α) (s : State) (f : α → State → Run β) : (Run.done a s).next f = f a s := rfl

@[simp] theorem Run.next_raised (s : State) (f : α → State → Run β) : (Run.raised s : Run α).next f = .raised s := rfl

@[simp] theorem finish_done (v : Result) (s : State) : finish (.done v s) = .next { s with result := v } := rfl

@[simp] theorem finish_raised (s : State) : finish (.raised s) = .next s := rfl

theorem whenRunning_ok {s : State} (h : s.fault = []) (k : Host.Outcome State Fault Refusal) : whenRunning s k = k :=
  if_pos h

theorem whenRunning_halted {s : State} (h : s.fault ≠ []) (k : Host.Outcome State Fault Refusal) :
    whenRunning s k = .fault .halted := if_neg h

theorem hostWord_idle {s : State} (w : Byte) (f : State → Run Result) (h : s.fault = []) (hq : s.seq = .idle) :
    hostWord w f s = finish (f s) := by simp [hostWord, whenRunning, h, hq]

theorem hostWord_busy {s : State} (w : Byte) (f : State → Run Result) (h : s.fault = []) (hq : s.seq ≠ .idle) :
    hostWord w f s = .next (raiseFault .busy (.word w) s) := by simp [hostWord, whenRunning, h, hq]

theorem hostWord_halted {s : State} (w : Byte) (f : State → Run Result) (h : s.fault ≠ []) :
    hostWord w f s = .fault .halted := whenRunning_halted h _

theorem hostCommand_idle {s : State} (f : State → Run Result) (h : s.fault = []) (hq : s.seq = .idle) :
    hostCommand f s = finish (f s) := by simp [hostCommand, whenRunning, h, hq]

theorem hostCommand_session {s : State} (f : State → Run Result) (h : s.fault = []) (hq : s.seq ≠ .idle) :
    hostCommand f s = .refused .lineNotAwaited := by simp [hostCommand, whenRunning, h, hq]

theorem hostCommand_halted {s : State} (f : State → Run Result) (h : s.fault ≠ []) :
    hostCommand f s = .fault .halted := whenRunning_halted h _

theorem sequencerStep_ok {s : State} (f : State → Run Result) (h : s.fault = []) :
    sequencerStep f s = finish (f s) := whenRunning_ok h _

theorem sequencerStep_halted {s : State} (f : State → Run Result) (h : s.fault ≠ []) :
    sequencerStep f s = .fault .halted := whenRunning_halted h _

theorem returnValue_ok {s : State} (v : Result) (h : s.fault = []) :
    returnValue v s = .next { s with result := v } := sequencerStep_ok _ h

theorem returnValue_halted {s : State} (v : Result) (h : s.fault ≠ []) : returnValue v s = .fault .halted :=
  sequencerStep_halted _ h

end Frames

/-! ### The accesses -/

theorem opReadAdv_ok {s : State} {a : Nat} (ha : s.addr = .val a) (hm : s.mode = .read) (h : a < 1024) :
    opReadAdv s = .done (s.mem.read a) { s with addr := .val (a + 1) } := by
  simp [opReadAdv, ha, hm, Nat.not_le.2 h]

theorem opReadAdv_unknown {s : State} (ha : s.addr = .unknown) :
    opReadAdv s = .raised (raiseFault .addrUnknown (.word readAdvWord) s) := by
  simp [opReadAdv, ha]

theorem opReadAdv_mode {s : State} {a : Nat} (ha : s.addr = .val a) (hm : s.mode ≠ .read) :
    opReadAdv s = .raised (raiseFault .mode (.word readAdvWord) s) := by
  simp [opReadAdv, ha, hm]

theorem opReadAdv_pastEnd {s : State} {a : Nat} (ha : s.addr = .val a) (hm : s.mode = .read) (h : 1024 ≤ a) :
    opReadAdv s = .raised (raiseFault .pastEnd (.word readAdvWord) s) := by
  simp [opReadAdv, ha, hm, h]

theorem opWriteAdv_ok {s : State} {a : Nat} (n : Nibble) (ha : s.addr = .val a) (hm : s.mode = .write)
    (hw : s.wp = .deasserted) (h : a < 1024) :
    opWriteAdv n s = .done () { s with mem := s.mem.write a n, addr := .val (a + 1) } := by
  simp [opWriteAdv, ha, hm, hw, Nat.not_le.2 h]

theorem opWriteAdv_unknown {s : State} (n : Nibble) (ha : s.addr = .unknown) :
    opWriteAdv n s = .raised (raiseFault .addrUnknown (.word (writeAdvWord n)) s) := by
  simp [opWriteAdv, ha]

theorem opWriteAdv_mode {s : State} {a : Nat} (n : Nibble) (ha : s.addr = .val a) (hm : s.mode ≠ .write) :
    opWriteAdv n s = .raised (raiseFault .mode (.word (writeAdvWord n)) s) := by
  simp [opWriteAdv, ha, hm]

theorem opWriteAdv_wp {s : State} {a : Nat} (n : Nibble) (ha : s.addr = .val a) (hm : s.mode = .write)
    (hw : s.wp = .asserted) : opWriteAdv n s = .raised (raiseFault .wp (.word (writeAdvWord n)) s) := by
  simp [opWriteAdv, ha, hm, hw]

theorem opWriteAdv_pastEnd {s : State} {a : Nat} (n : Nibble) (ha : s.addr = .val a) (hm : s.mode = .write)
    (hw : s.wp = .deasserted) (h : 1024 ≤ a) :
    opWriteAdv n s = .raised (raiseFault .pastEnd (.word (writeAdvWord n)) s) := by
  simp [opWriteAdv, ha, hm, hw, h]

/-- `n` reads that fit give the `n` nibbles from ADDR on and move ADDR by `n` (R105, R107). -/
theorem readMany_ok {s : State} {a : Nat} (n : Nat) (ha : s.addr = .val a) (hm : s.mode = .read) (h : a + n ≤ 1024) :
    readMany n s = .done (s.mem.slice a n) { s with addr := .val (a + n) } := by
  induction n generalizing s a with
  | zero => simp [readMany, ← ha]
  | succ n ih =>
    rw [readMany, opReadAdv_ok ha hm (by omega), Run.next_done, ih (s := { s with addr := .val (a + 1) }) (a := a + 1) rfl hm (by omega), Run.next_done,
      Memory.slice_succ, show a + 1 + n = a + (n + 1) by omega]

/-- Reads that run past the end stop at 1024 with F_PAST_END (R55, R107). -/
theorem readMany_pastEnd {s : State} {a : Nat} (n : Nat) (ha : s.addr = .val a) (hm : s.mode = .read) (ha' : a ≤ 1024)
    (h : 1024 < a + n) :
    readMany n s = .raised (raiseFault .pastEnd (.word readAdvWord) { s with addr := .val 1024 }) := by
  induction n generalizing s a with
  | zero => omega
  | succ n ih =>
    by_cases e : a = 1024
    · subst e
      rw [readMany, opReadAdv_pastEnd ha hm (by omega), Run.next_raised, ← ha]
    · rw [readMany, opReadAdv_ok ha hm (by omega), Run.next_done, ih (s := { s with addr := .val (a + 1) }) (a := a + 1) rfl hm (by omega)
        (by omega),
        Run.next_raised]

theorem opSkip_ok {s : State} {a : Nat} (n : Nat) (ha : s.addr = .val a) (hm : s.mode = .read) (h : a + n ≤ 1024) :
    opSkip n s = .done () { s with addr := .val (a + n) } := by
  rw [opSkip, readMany_ok n ha hm h, Run.next_done]

/-- The field at an address, FB[i] the nibble at `a + i` (R81). -/
def fieldAt (m : Memory) (a : Nat) : FreqField :=
  ⟨m.read a, m.read (a + 1), m.read (a + 2), m.read (a + 3), m.read (a + 4), m.read (a + 5), m.read (a + 6),
    m.read (a + 7), m.read (a + 8)⟩

theorem fieldOfList_slice (m : Memory) (a : Nat) : fieldOfList (m.slice a 9) = fieldAt m a := by
  simp [Memory.slice_succ, fieldOfList, fieldAt, Nat.add_assoc]

theorem readField_ok {s : State} {a : Nat} (ha : s.addr = .val a) (hm : s.mode = .read) (h : a + 9 ≤ 1024) :
    readField s = .done (fieldAt s.mem a) { s with addr := .val (a + 9) } := by
  rw [readField, readMany_ok 9 ha hm h, Run.next_done, fieldOfList_slice]

/-! ### Sequences -/

@[simp] theorem forEach_nil {α : Type} (f : α → State → Run Unit) (s : State) : forEach f [] s = .done () s := rfl

theorem forEach_cons {α : Type} (f : α → State → Run Unit) (x : α) (xs : List α) (s : State) :
    forEach f (x :: xs) s = (f x s).next fun _ t => forEach f xs t := rfl

/-- A sequence whose every piece completes by one update completes by their fold. -/
theorem forEach_fold {α : Type} (f : α → State → Run Unit) (g : State → α → State) (P : List α → State → Prop)
    (hf : ∀ x xs s, P (x :: xs) s → f x s = .done () (g s x) ∧ P xs (g s x)) :
    ∀ xs s, P xs s → forEach f xs s = .done () (xs.foldl g s)
  | [], _, _ => rfl
  | x :: xs, s, h => by
    obtain ⟨h1, h2⟩ := hf x xs s h
    rw [forEach_cons, h1, Run.next_done, forEach_fold f g P hf xs _ h2, List.foldl_cons]

/-! ### Where a run can end -/


/-- A run ends in `P` where it completes and in `Q` where it takes a fault. -/
def Run.EndsIn {α : Type} (P Q : State → Prop) : Run α → Prop
  | .done _ s => P s
  | .raised s => Q s

theorem Run.EndsIn.next {α β : Type} {P P' Q : State → Prop} {r : Run α} {f : α → State → Run β} (h : r.EndsIn P Q)
    (hf : ∀ a s, P s → (f a s).EndsIn P' Q) : (r.next f).EndsIn P' Q := by
  cases r with
  | done a s => exact hf a s h
  | raised s => exact h

theorem forEach_endsIn {α : Type} {P Q : State → Prop} {f : α → State → Run Unit}
    (hf : ∀ x s, P s → (f x s).EndsIn P Q) : ∀ xs s, P s → (forEach f xs s).EndsIn P Q
  | [], _, h => h
  | x :: xs, s, h => (hf x s h).next fun _ t ht => forEach_endsIn hf xs t ht

theorem readMany_endsIn {P Q : State → Prop} (hP : ∀ s, P s → (opReadAdv s).EndsIn P Q) :
    ∀ n s, P s → (readMany n s).EndsIn P Q
  | 0, _, h => h
  | n + 1, s, h => (hP s h).next fun _ t ht => (readMany_endsIn hP n t ht).next fun _ _ hu => hu

end Sys2Proof.Machine
end

