-- ==== Sys2Proof/Laws/Transport.lean ====
section
/-!
SUPPORT. The lines of a Program or Verify session: their kinds, their nibbles, and what writing or comparing a list of
nibbles does.
-/

namespace Sys2Proof.Machine

/-! ### Kinds of line -/

theorem qualifyLine_iff (l : Line) :
    qualifyLine l = true ↔ 69 ≤ l.length ∧ ∃ c ∈ l.head?, isRecLead c = true := by
  cases l with
  | nil => simp [qualifyLine]
  | cons c l => simp [qualifyLine]

theorem classify_data {l : Line} : classify l = .data ↔ qualifyLine l = true := by
  cases l with
  | nil => simp [classify, qualifyLine]
  | cons c l => by_cases h : qualifyLine (c :: l) = true <;> simp [classify, h]

theorem classify_end {l : Line} : classify l = .endOfInput ↔ l = [] := by
  cases l with
  | nil => simp [classify]
  | cons c l => by_cases h : qualifyLine (c :: l) = true <;> simp [classify, h]

theorem classify_skip {l : Line} : classify l = .skip ↔ l ≠ [] ∧ qualifyLine l = false := by
  cases l with
  | nil => simp [classify]
  | cons c l => by_cases h : qualifyLine (c :: l) = true <;> simp [classify, h]

theorem length_of_data {l : Line} (h : classify l = .data) : 69 ≤ l.length :=
  ((qualifyLine_iff l).1 (classify_data.1 h)).1

/-! ### Parsing -/

/-- The hex values of a data line, character by character (R186). -/
theorem lineValues_eq (b : Bool) {l : Line} (h : 69 ≤ l.length) :
    lineValues b l = (List.range 64).map fun j => hexValue b (l.getD (5 + j) 0#8) := by
  apply List.ext_getElem
  · simp [lineValues]; omega
  · intro i h1 h2
    simp only [List.length_map, List.length_range] at h2
    simp [lineValues, show 5 + i < l.length by omega]

/-- PARSE_LINE of a data line (R186). -/
theorem opParseLine_eq {l : Line} (h : classify l = .data) (s : State) :
    opParseLine l s =
      match parseLine s.params l with
      | .data p => .done (some p) s
      | .reject => .done none s
      | .badHex => .raised (raiseFault .hex .parseLine s) := by
  cases hp : parseLine s.params l <;> simp [opParseLine, h, hp]

/-- PARSE_LINE of a line that is no data line returns the free value and neither faults nor writes. -/
theorem opParseLine_other {l : Line} (h : classify l ≠ .data) (s : State) :
    opParseLine l s = .done ((Config.unstatedParse s.params l).map fun v => (List.range 64).map v) s := by
  rw [opParseLine, if_neg h, parseOther]
  cases Config.unstatedParse s.params l <;> rfl

/-- PARSE_LINE gives the values & 0xF where no character is bad, or under CLAMP_4BIT. -/
theorem parseLine_usable {p : Params} {l : Line}
    (h : Config.hexBad ∉ lineValues p.acceptLower l ∨ p.hexPolicy = .clamp4Bit) :
    parseLine p l = .data ((lineValues p.acceptLower l).map (BitVec.ofNat 4)) := by
  by_cases hb : Config.hexBad ∈ lineValues p.acceptLower l
  · have hp := h.resolve_left (by simpa using hb)
    simp [parseLine, hb, hp]
  · simp [parseLine, hb]

theorem parseLine_reject {p : Params} {l : Line} (h : Config.hexBad ∈ lineValues p.acceptLower l)
    (hp : p.hexPolicy = .rejectLine) : parseLine p l = .reject := by simp [parseLine, h, hp]

theorem parseLine_fault {p : Params} {l : Line} (h : Config.hexBad ∈ lineValues p.acceptLower l)
    (hp : p.hexPolicy = .fault) : parseLine p l = .badHex := by simp [parseLine, h, hp]

/-! ### One nibble after the other -/

theorem programNibble_past {s : State} {a : Nat} (v : Nibble) (ha : s.addr = .val a) (h : 1024 ≤ a) :
    programNibble v s = .done () s := by simp [programNibble, pastLast, ha, h]

theorem programNibble_ok {s : State} {a : Nat} (v : Nibble) (ha : s.addr = .val a) (hm : s.mode = .write)
    (hw : s.wp = .deasserted) (h : a < 1024) :
    programNibble v s = .done () { s with mem := s.mem.write a v, addr := .val (a + 1) } := by
  simp [programNibble, pastLast, ha, Nat.not_le.2 h, opWriteAdv_ok v ha hm hw h]

/-- Writing a list of nibbles stores as many as fit and moves the counter with them (R187). -/
theorem forEach_programNibble {s : State} {a : Nat} (vs : List Nibble) (ha : s.addr = .val a) (ha' : a ≤ 1024)
    (hm : s.mode = .write) (hw : s.wp = .deasserted) :
    forEach programNibble vs s =
      .done () { s with mem := s.mem.writeList a (vs.take (1024 - a)), addr := .val (min 1024 (a + vs.length)) } := by
  induction vs generalizing s a with
  | nil => simp [Memory.writeList, ← ha, Nat.min_eq_right ha']
  | cons v vs ih =>
    rw [forEach_cons]
    by_cases e : a = 1024
    · subst e
      rw [programNibble_past v ha (by omega), Run.next_done, ih ha (by omega) hm hw]
      simp [Memory.writeList]
    · rw [programNibble_ok v ha hm hw (by omega), Run.next_done,
        ih (s := { s with mem := s.mem.write a v, addr := .val (a + 1) }) (a := a + 1) rfl (by omega) hm hw]
      obtain ⟨k, hk⟩ : ∃ k, 1024 - a = k + 1 := ⟨1023 - a, by omega⟩
      simp [hk, Memory.writeList, show 1024 - (a + 1) = k by omega, show a + 1 + vs.length = a + (vs.length + 1) by omega]

/-- LASTMM after comparing a list of nibbles with the memory from `a` on (R188). -/
def lastMismatch (p : Params) (m : Memory) : Nat → List Nibble → Option Nat → Option Nat
  | _, [], x => x
  | a, v :: vs, x => lastMismatch p m (a + 1) vs (if m.read a = v then x else mismatchAt p (.val a))

theorem verifyNibble_ok {s : State} {a : Nat} (v : Nibble) (ha : s.addr = .val a) (hm : s.mode = .read) (h : a < 1024) :
    verifyNibble v s = .done () { s with
      addr := .val (a + 1), lastmm := if s.mem.read a = v then s.lastmm else mismatchAt s.params (.val a) } := by
  rw [verifyNibble, opReadAdv_ok ha hm h, Run.next_done]
  split <;> simp [*]

theorem verifyNibble_pastEnd {s : State} (v : Nibble) (ha : s.addr = .val 1024) (hm : s.mode = .read) :
    verifyNibble v s = .raised (raiseFault .pastEnd (.word readAdvWord) s) := by
  rw [verifyNibble, opReadAdv_pastEnd ha hm (Nat.le_refl _), Run.next_raised]

/-- Comparing a list of nibbles that fits (R188). -/
theorem forEach_verifyNibble {s : State} {a : Nat} (vs : List Nibble) (ha : s.addr = .val a) (hm : s.mode = .read)
    (h : a + vs.length ≤ 1024) :
    forEach verifyNibble vs s =
      .done () { s with addr := .val (a + vs.length), lastmm := lastMismatch s.params s.mem a vs s.lastmm } := by
  induction vs generalizing s a with
  | nil => simp [lastMismatch, ← ha]
  | cons v vs ih =>
    simp only [List.length_cons] at h
    rw [forEach_cons, verifyNibble_ok v ha hm (by omega), Run.next_done,
      ih (s := { s with
        addr := .val (a + 1), lastmm := if s.mem.read a = v then s.lastmm else mismatchAt s.params (.val a) })
        (a := a + 1) rfl hm (by omega)]
    simp [lastMismatch, show a + 1 + vs.length = a + (vs.length + 1) by omega]

/-- Comparing a list of nibbles that runs past the end (R188). -/
theorem forEach_verifyNibble_pastEnd {s : State} {a : Nat} (vs : List Nibble) (ha : s.addr = .val a) (ha' : a ≤ 1024)
    (hm : s.mode = .read) (h : 1024 < a + vs.length) :
    forEach verifyNibble vs s =
      .raised (raiseFault .pastEnd (.word readAdvWord)
        { s with addr := .val 1024, lastmm := lastMismatch s.params s.mem a (vs.take (1024 - a)) s.lastmm }) := by
  induction vs generalizing s a with
  | nil => simp at h; omega
  | cons v vs ih =>
    simp only [List.length_cons] at h
    rw [forEach_cons]
    by_cases e : a = 1024
    · subst e
      rw [verifyNibble_pastEnd v ha hm, Run.next_raised]
      simp [lastMismatch, ← ha]
    · rw [verifyNibble_ok v ha hm (by omega), Run.next_done,
        ih (s := { s with
          addr := .val (a + 1), lastmm := if s.mem.read a = v then s.lastmm else mismatchAt s.params (.val a) })
          (a := a + 1) rfl (by omega) hm (by omega)]
      obtain ⟨k, hk⟩ : ∃ k, 1024 - a = k + 1 := ⟨1023 - a, by omega⟩
      simp [hk, lastMismatch, show 1024 - (a + 1) = k by omega]

/-- Where every nibble matches, LASTMM stays. -/
theorem lastMismatch_match (p : Params) (m : Memory) (vs : List Nibble) (a : Nat) (x : Option Nat)
    (h : ∀ j < vs.length, m.read (a + j) = vs.getD j 0#4) : lastMismatch p m a vs x = x := by
  induction vs generalizing a x with
  | nil => rfl
  | cons v vs ih =>
    have h0 := h 0 (by simp)
    simp only [Nat.add_zero, List.getD_cons_zero] at h0
    rw [lastMismatch, if_pos h0]
    refine ih (a + 1) x fun j hj => ?_
    have := h (j + 1) (by simpa using hj)
    simpa [show a + 1 + j = a + (j + 1) by omega] using this

/-- The last mismatch is the one after which every nibble matches. -/
theorem lastMismatch_last (p : Params) (m : Memory) (vs : List Nibble) (a j : Nat) (x : Option Nat)
    (hj : j < vs.length) (h : m.read (a + j) ≠ vs.getD j 0#4)
    (hk : ∀ k, j < k → k < vs.length → m.read (a + k) = vs.getD k 0#4) :
    lastMismatch p m a vs x = mismatchAt p (.val (a + j)) := by
  induction vs generalizing a j x with
  | nil => simp at hj
  | cons v vs ih =>
    rw [lastMismatch]
    cases j with
    | zero =>
      rw [if_neg (by simpa using h)]
      refine lastMismatch_match p m vs (a + 1) _ fun k hk' => ?_
      have := hk (k + 1) (by omega) (by simpa using hk')
      simpa [show a + 1 + k = a + (k + 1) by omega] using this
    | succ j =>
      rw [show a + (j + 1) = a + 1 + j by omega]
      refine ih (a + 1) j _ (by simpa using hj) ?_ fun k h1 h2 => ?_
      · simpa [show a + 1 + j = a + (j + 1) by omega] using h
      · have := hk (k + 1) (by omega) (by simpa using h2)
        simpa [show a + 1 + k = a + (k + 1) by omega] using this

/-! ### A whole line -/

theorem opLine_notData (f : Nibble → State → Run Unit) {l : Line} (s : State) (h : classify l ≠ .data) :
    opLine f l s = .done (classify l) s := by
  rw [opLine]
  cases hc : classify l <;> simp_all

theorem opLine_data (f : Nibble → State → Run Unit) {l : Line} {s : State} {vs : List Nibble}
    (h : classify l = .data) (hp : parseLine s.params l = .data vs) :
    opLine f l s = (forEach f vs s).next fun _ u => .done .data u := by
  simp [opLine, h, opParseLine, hp]

theorem opLine_reject (f : Nibble → State → Run Unit) {l : Line} {s : State}
    (h : classify l = .data) (hp : parseLine s.params l = .reject) : opLine f l s = .done .skip s := by
  simp [opLine, h, opParseLine, hp]

theorem opLine_badHex (f : Nibble → State → Run Unit) {l : Line} {s : State}
    (h : classify l = .data) (hp : parseLine s.params l = .badHex) :
    opLine f l s = .raised (raiseFault .hex .parseLine s) := by
  simp [opLine, h, opParseLine, hp]

end Sys2Proof.Machine
end

