-- ==== Sys2Proof/Laws/Sessions.lean ====
section
/-!
SUPPORT. What the Read and List sessions do, piece by piece, in terms of random reads of the memory.
-/

namespace Sys2Proof.Machine

/-! ### Read -/

/-- ENCODE_RECORD that fits (R182). -/
theorem opEncodeRecord_ok {s : State} {a : Nat} (l : Nat) (ha : s.addr = .val a) (hm : s.mode = .read)
    (h : a + 64 ≤ 1024) :
    opEncodeRecord l s = .done (recordText s.params l (s.mem.slice a 64)) { s with addr := .val (a + 64) } := by
  rw [opEncodeRecord, readMany_ok 64 ha hm h, Run.next_done]

/-- The event of record b of a dump (R193). -/
def dumpEvent (p : Params) (m : Memory) (b : Nat) : Event := .line (recordText p (64 * b) (m.slice (64 * b) 64))

/-- Records k, …, k + n − 1 of a dump. -/
theorem forEach_dumpBlock {s : State} {k : Nat} (n : Nat) (ha : s.addr = .val (64 * k)) (hm : s.mode = .read)
    (h : k + n ≤ 16) :
    forEach dumpBlock (List.range' k n) s =
      .done () { s with
        addr := .val (64 * (k + n)), out := s.out ++ (List.range' k n).map (dumpEvent s.params s.mem) } := by
  induction n generalizing s k with
  | zero => simp [← ha]
  | succ n ih =>
    have e : dumpBlock k s =
        .done () { s with addr := .val (64 * (k + 1)), out := s.out ++ [dumpEvent s.params s.mem k] } := by
      rw [dumpBlock, opEncodeRecord_ok _ ha hm (by omega)]
      rfl
    rw [List.range'_succ, forEach_cons, e, Run.next_done, ih (by rfl) (by exact hm) (by omega)]
    simp [show k + 1 + n = k + (n + 1) by omega]

/-- The whole Read session (R193). -/
theorem readSession_eq (s : State) :
    readSession s = .done .none { s with
      addr := .val 1024, mode := .read, seq := .idle,
      out := s.out ++ (List.range 16).map (dumpEvent s.params s.mem) } := by
  rw [readSession, Config.recCount, List.range_eq_range', forEach_dumpBlock (k := 0) 16 (by rfl) (by rfl) (by omega)]
  rfl

/-! ### List -/

/-- The pair (LO, HI) of offset entry k (R80). -/
def entryPair (p : Params) (m : Memory) (k : Nat) : Nibble × Nibble :=
  offsetPair p.ofsNibbleOrder (m.read (6 + 2 * k)) (m.read (6 + 2 * k + 1))

/-- The event of offset entry k (R163). -/
def entryEvent (p : Params) (m : Memory) (k : Nat) : Event :=
  .ofsEntry k (offsetSign (entryPair p m k).2) (offsetTens (entryPair p m k).2) (entryPair p m k).1

/-- The value of offset entry k (R162). -/
def entryOffset (p : Params) (m : Memory) (k : Nat) : Int := decodeOffset (entryPair p m k).1 (entryPair p m k).2

theorem listOffset_ok {s : State} {k : Nat} (ha : s.addr = .val (6 + 2 * k)) (hm : s.mode = .read) (h : k < 5) :
    listOffset k s = .done () { s with
      addr := .val (6 + 2 * (k + 1)), ofs := s.ofs.set k (some (entryOffset s.params s.mem k)),
      out := s.out ++ [entryEvent s.params s.mem k] } := by
  rw [listOffset, opReadAdv_ok ha hm (by omega), Run.next_done,
    opReadAdv_ok (a := 6 + 2 * k + 1) (by rfl) (by exact hm) (by omega), Run.next_done]
  rfl

/-- Offset entries k, …, k + n − 1. -/
theorem forEach_listOffset {s : State} {k : Nat} (n : Nat) (ha : s.addr = .val (6 + 2 * k)) (hm : s.mode = .read)
    (h : k + n ≤ 5) :
    forEach listOffset (List.range' k n) s = .done () { s with
      addr := .val (6 + 2 * (k + n)),
      ofs := (List.range' k n).foldl (fun o j => o.set j (some (entryOffset s.params s.mem j))) s.ofs,
      out := s.out ++ (List.range' k n).map (entryEvent s.params s.mem) } := by
  induction n generalizing s k with
  | zero => simp [← ha]
  | succ n ih =>
    rw [List.range'_succ, forEach_cons, listOffset_ok ha hm (by omega), Run.next_done,
      ih (by rfl) (by exact hm) (by omega)]
    simp [show k + 1 + n = k + (n + 1) by omega]

theorem listLimit_ok {s : State} {a : Nat} (w : LimitId) (ha : s.addr = .val a) (hm : s.mode = .read)
    (h : a + 9 ≤ 1024) :
    listLimit w s = .done () { s with
      addr := .val (a + 9), out := s.out ++ [.limit w (decodeFreq (fieldAt s.mem a) 0)] } := by
  rw [listLimit, readField_ok ha hm h]
  rfl

/-- Where channel record i begins (R61). -/
def channelBase (i : Nat) : Nat := 0x12A + 18 * i

/-- Whether channel record i draws an offset (R169). -/
def channelDraws (m : Memory) (i : Nat) : Bool :=
  !isBlank (fieldAt m (channelBase i + 9)) && decide (5 ≤ (m.read (channelBase i + 8)).toNat)

/-- How many draws the records below i make. -/
def drawsBelow (m : Memory) (i : Nat) : Nat := ((List.range i).filter (channelDraws m)).length

theorem drawsBelow_succ (m : Memory) (i : Nat) :
    drawsBelow m (i + 1) = drawsBelow m i + if channelDraws m i then 1 else 0 := by
  rw [drawsBelow, List.range_succ, List.filter_append, List.length_append, drawsBelow]
  by_cases h : channelDraws m i = true <;> simp [h]

/-- The offset of channel record i, with `d` draws made before the session's first channel and the table `ofs`. -/
def channelOfs (ofs : List (Option Int)) (m : Memory) (d i : Nat) : Int :=
  if (m.read (channelBase i + 8)).toNat < 5 then ((ofs.getD (m.read (channelBase i + 8)).toNat none).getD 0)
  else Config.ofsDraw (d + drawsBelow m i)

/-- The event of channel record i (R165). -/
def channelEvent (ofs : List (Option Int)) (m : Memory) (d i : Nat) : Event :=
  .channel ((i : Int) - 1) (m.read (channelBase i + 8)) (decodeFreq (fieldAt m (channelBase i + 9)) (channelOfs ofs m d i))

theorem offsetFor_entry {s : State} {m : Nibble} (h : m.toNat < 5) {v : Int}
    (hv : s.ofs.getD m.toNat none = some v) : offsetFor m s = .done v s := by
  simp only [offsetFor, Config.nOfs, if_pos h, hv]

theorem offsetFor_draw {s : State} {m : Nibble} (h : ¬ m.toNat < 5) :
    offsetFor m s = .done (Config.ofsDraw s.draws) { s with draws := s.draws + 1 } := by
  simp only [offsetFor, Config.nOfs, if_neg h]

/-- The frequency of channel record i (R165, R169). -/
theorem channelFreq_ok {s : State} {i d : Nat} (hd : s.draws = d + drawsBelow s.mem i)
    (ho : ∀ k < 5, ∃ v, s.ofs.getD k none = some v) :
    channelFreq (s.mem.read (channelBase i + 8)) (fieldAt s.mem (channelBase i + 9)) s =
      .done (decodeFreq (fieldAt s.mem (channelBase i + 9)) (channelOfs s.ofs s.mem d i))
        { s with draws := d + drawsBelow s.mem (i + 1) } := by
  by_cases hb : isBlank (fieldAt s.mem (channelBase i + 9)) = true
  · simp [channelFreq, hb, decodeFreq, drawsBelow_succ, channelDraws, ← hd]
  · by_cases h5 : (s.mem.read (channelBase i + 8)).toNat < 5
    · obtain ⟨v, hv⟩ := ho _ h5
      rw [channelFreq, if_neg hb, offsetFor_entry h5 hv, Run.next_done, channelOfs, if_pos h5, hv]
      simp [drawsBelow_succ, channelDraws, Nat.not_le.2 h5, ← hd]
    · rw [channelFreq, if_neg hb, offsetFor_draw h5, Run.next_done, channelOfs, if_neg h5]
      simp [drawsBelow_succ, channelDraws, hb, Nat.not_lt.1 h5, hd, Nat.add_assoc]

theorem listChannel_ok {s : State} {i d : Nat} (ha : s.addr = .val (channelBase i)) (hm : s.mode = .read) (h : i < 34)
    (hd : s.draws = d + drawsBelow s.mem i) (ho : ∀ k < 5, ∃ v, s.ofs.getD k none = some v) :
    listChannel i s = .done () { s with
      addr := .val (channelBase (i + 1)), draws := d + drawsBelow s.mem (i + 1),
      out := s.out ++ [channelEvent s.ofs s.mem d i] } := by
  have hb : channelBase i + 18 ≤ 1024 := by unfold channelBase; omega
  rw [listChannel, opSkip_ok 8 ha hm (by omega), Run.next_done,
    opReadAdv_ok (a := channelBase i + 8) (by rfl) (by exact hm) (by omega), Run.next_done,
    readField_ok (a := channelBase i + 9) (by rfl) (by exact hm) (by omega), Run.next_done]
  have e := channelFreq_ok (s := { s with addr := .val (channelBase (i + 1)) }) (i := i) hd ho
  rw [show channelBase i + 9 + 9 = channelBase (i + 1) by unfold channelBase; omega]
  exact congrArg (Run.next · _) e

/-- Channel records i, …, i + n − 1. -/
theorem forEach_listChannel {s : State} {i d : Nat} (n : Nat) (ha : s.addr = .val (channelBase i)) (hm : s.mode = .read)
    (h : i + n ≤ 34) (hd : s.draws = d + drawsBelow s.mem i) (ho : ∀ k < 5, ∃ v, s.ofs.getD k none = some v) :
    forEach listChannel (List.range' i n) s = .done () { s with
      addr := .val (channelBase (i + n)), draws := d + drawsBelow s.mem (i + n),
      out := s.out ++ (List.range' i n).map (channelEvent s.ofs s.mem d) } := by
  induction n generalizing s i with
  | zero => simp [← ha, ← hd]
  | succ n ih =>
    rw [List.range'_succ, forEach_cons, listChannel_ok ha hm (by omega) hd ho, Run.next_done,
      ih (by rfl) (by exact hm) (by omega) (by rfl) (by exact ho)]
    simp [show i + 1 + n = i + (n + 1) by omega]

/-- The offset table a List session leaves (R162). -/
def filledTable (p : Params) (m : Memory) : List (Option Int) := (List.range 5).map fun k => some (entryOffset p m k)

theorem filledTable_get (p : Params) (m : Memory) {k : Nat} (h : k < 5) :
    (filledTable p m).getD k none = some (entryOffset p m k) := by
  simp [filledTable, List.getD, List.getElem?_map, List.getElem?_range h]

/-- The events of a List session (R163 to R165). -/
def walkEvents (p : Params) (m : Memory) (d : Nat) : List Event :=
  (List.range 5).map (entryEvent p m) ++
  [.limit .low (decodeFreq (fieldAt m 0x1B) 0), .limit .high (decodeFreq (fieldAt m 0x24) 0)] ++
  (List.range 34).map (channelEvent (filledTable p m) m d)

theorem listOffsets_eq {s : State} (ha : s.addr = .val 0) (hm : s.mode = .read) (ho : s.ofs = List.replicate 5 none) :
    listOffsets s = .done () { s with
      addr := .val 16, ofs := filledTable s.params s.mem,
      out := s.out ++ (List.range 5).map (entryEvent s.params s.mem) } := by
  have e := forEach_listOffset (s := { s with addr := .val 6 }) (k := 0) 5 (by rfl) (by exact hm) (by omega)
  rw [listOffsets, opSkip_ok (a := 0) 6 ha hm (by omega), Run.next_done, Config.nOfs, List.range_eq_range']
  refine e.trans ?_
  simp [ho, List.range'_succ, filledTable, List.range_eq_range']

theorem listLimits_eq {s : State} (ha : s.addr = .val 16) (hm : s.mode = .read) :
    listLimits s = .done () { s with
      addr := .val 45,
      out := s.out ++ [.limit .low (decodeFreq (fieldAt s.mem 27) 0), .limit .high (decodeFreq (fieldAt s.mem 36) 0)] } := by
  rw [listLimits, opSkip_ok (a := 16) (Config.limBase - Config.msOfsEnd) ha hm (by decide), Run.next_done,
    forEach_cons, listLimit_ok (a := 27) .low (by rfl) (by exact hm) (by omega), Run.next_done,
    forEach_cons, listLimit_ok (a := 36) .high (by rfl) (by exact hm) (by omega), Run.next_done, forEach_nil]
  simp

theorem listChannels_eq {s : State} (ha : s.addr = .val 45) (hm : s.mode = .read)
    (ho : s.ofs = filledTable s.params s.mem) :
    listChannels s = .done () { s with
      addr := .val 0x38E, draws := s.draws + drawsBelow s.mem 34,
      out := s.out ++ (List.range 34).map (channelEvent (filledTable s.params s.mem) s.mem s.draws) } := by
  have e := forEach_listChannel (s := { s with addr := .val (channelBase 0) }) (i := 0) (d := s.draws) 34 (by rfl)
    (by exact hm) (by omega) (by rfl) (fun k hk => ⟨_, by simpa [ho] using filledTable_get s.params s.mem hk⟩)
  rw [listChannels, opSkip_ok (a := 45) (Config.msChStart - Config.msLimEnd) ha hm (by decide), Run.next_done,
    Config.nChannels, List.range_eq_range']
  refine e.trans ?_
  simp [ho, channelBase]

/-- The whole List session (R160). -/
theorem listSession_eq (s : State) :
    listSession s = .done .none { s with
      addr := .val 1024, mode := .read, seq := .idle, ofs := filledTable s.params s.mem,
      draws := s.draws + drawsBelow s.mem 34, out := s.out ++ walkEvents s.params s.mem s.draws } := by
  rw [listSession, listOffsets_eq (by rfl) (by rfl) (by rfl), Run.next_done, listLimits_eq (by rfl) (by rfl),
    Run.next_done, listChannels_eq (by rfl) (by rfl) (by rfl), Run.next_done,
    opSkip_ok (a := 0x38E) (Config.nAddr - Config.chEnd) (by rfl) (by rfl) (by decide), Run.next_done]
  simp [walkEvents, endSession, readPrologue]

end Sys2Proof.Machine
end

