-- ==== Sys2Proof/Laws/Exec.lean ====
section
/-!
SUPPORT. Every instruction's meaning in terms of its frame (a host word, a command line, a step of the sequencer, a
returned value), and what step does, case by case.
-/

namespace Sys2Proof.Machine

variable (s : State)

/-! ### Operation words and pseudo-operations -/

theorem exec_reset : exec .reset s = hostWord 0x10#8 (fun s => .done .none (opReset s)) s := rfl
theorem exec_modeRead : exec .modeRead s = hostWord 0x20#8 (fun s => .done .none (opModeRead s)) s := rfl
theorem exec_modeWrite : exec .modeWrite s = hostWord 0x30#8 (fun s => .done .none (opModeWrite s)) s := rfl
theorem exec_wpAssert : exec .wpAssert s = hostWord 0x40#8 (fun s => .done .none (opWpAssert s)) s := rfl
theorem exec_wpDeassert : exec .wpDeassert s = hostWord 0x50#8 (fun s => .done .none (opWpDeassert s)) s := rfl
theorem exec_readAdv :
    exec .readAdv s = hostWord readAdvWord (fun s => (opReadAdv s).next fun v t => .done (.nibble v) t) s := rfl
theorem exec_writeAdv (n : Nibble) :
    exec (.writeAdv n) s = hostWord (writeAdvWord n) (fun s => (opWriteAdv n s).next fun _ t => .done .none t) s := rfl
theorem exec_opwReserved (w : Byte) :
    exec (.opwReserved w) s = whenRunning s (.next (raiseFault .reserved (.word w) s)) := rfl
theorem exec_skip_zero : exec (.skip 0) s = returnValue .none s := rfl
theorem exec_skip_succ (n : Nat) :
    exec (.skip (n + 1)) s = hostWord readAdvWord (fun s => (opSkip (n + 1) s).next fun _ t => .done .none t) s := rfl
theorem exec_seek (a : Nat) :
    exec (.seek a) s = hostWord 0x10#8 (fun s => (opSkip a (opReset s)).next fun _ t => .done .none t) s := rfl

/-! ### Command lines -/

theorem exec_cmdRead (c : Line) : exec (.cmdRead c) s = hostCommand readSession s := rfl
theorem exec_cmdProgram (c : Line) :
    exec (.cmdProgram c) s = hostCommand (fun s => .done .none (programStart s)) s := rfl
theorem exec_cmdVerify (c : Line) : exec (.cmdVerify c) s = hostCommand (fun s => .done .none (verifyStart s)) s := rfl
theorem exec_cmdList (c : Line) : exec (.cmdList c) s = hostCommand listSession s := rfl
theorem exec_cmdNop (c : Line) : exec (.cmdNop c) s = hostCommand (fun s => .done .none s) s := rfl

/-! ### Functions of the sequencer -/

theorem exec_decodeOffset (lo hi : Nibble) :
    exec (.decodeOffset lo hi) s = returnValue (.offset (decodeOffset lo hi)) s := rfl
theorem exec_decodeFreq (fb : FreqField) (ofs : Int) :
    exec (.decodeFreq fb ofs) s = returnValue (.freq (decodeFreq fb ofs)) s := rfl
theorem exec_normalize (m a : Int) :
    exec (.normalize m a) s = returnValue (.normalized (normalizePair m a).1 (normalizePair m a).2) s := rfl
theorem exec_renderOffset (lo hi : Nibble) :
    exec (.renderOffset lo hi) s = returnValue (.text (renderOffset lo hi)) s := rfl
theorem exec_renderFreq (r : FreqResult) : exec (.renderFreq r) s = returnValue (.text (renderFreq r)) s := rfl
theorem exec_hexChar (v : Nibble) : exec (.hexChar v) s = returnValue (.char (hexChar v)) s := rfl
theorem exec_hexValue (c : Byte) :
    exec (.hexValue c) s = returnValue (.hexVal (hexValue s.params.acceptLower c)) s := rfl
theorem exec_qualifyLine (l : Line) : exec (.qualifyLine l) s = returnValue (.truth (qualifyLine l)) s := rfl
theorem exec_classify (l : Line) : exec (.classify l) s = returnValue (.kind (classify l)) s := rfl
theorem exec_programLine (l : Line) :
    exec (.programLine l) s =
      sequencerStep (fun s => (opLine programNibble l s).next fun k t => .done (.kind k) t) s := rfl
theorem exec_verifyLine (l : Line) :
    exec (.verifyLine l) s =
      sequencerStep (fun s => (opLine verifyNibble l s).next fun k t => .done (.kind k) t) s := rfl

theorem exec_label (a : Nat) : exec (.label a) s = returnValue (.text (label a)) s := rfl
theorem exec_encodeRecord (a : Nat) :
    exec (.encodeRecord a) s = sequencerStep (fun s => (opEncodeRecord a s).next fun t u => .done (.text t) u) s := rfl
theorem exec_parseLine (l : Line) :
    exec (.parseLine l) s = sequencerStep (fun s => (opParseLine l s).next fun p t =>
      match p with
      | none => .done .rejected t
      | some vs => .done (.parsed vs) t) s := rfl

variable {s}

/-! ### A step -/

theorem step_halted (h : s.fault ≠ []) : step s = .fault .halted := whenRunning_halted h _

/-- A step of a running block with an item to take runs what the item decodes to. -/
theorem step_item {it : HostItem} {rest : List HostItem} {i : Instr} (h : s.fault = []) (hi : s.input = it :: rest)
    (hd : decodeItem s.seq it = some i) :
    step s = resumeOutcome s.seq (exec i { s with input := rest }) := by
  rw [step, whenRunning_ok h, hi]
  simp only [hd]

@[simp] theorem resume_idle (t : State) : resume .idle t = t := by simp [resume]

@[simp] theorem resumeOutcome_idle (o : Host.Outcome State Fault Refusal) : resumeOutcome .idle o = o := by
  cases o <;> simp [resumeOutcome]

theorem resume_waits {q : SeqState} {t : State} (h : t.result ≠ .kind .endOfInput) : resume q t = t := if_neg h

/-- Everything a step that answers a next state can be: it waited, or it ran an instruction and then its session went on. -/
theorem step_cases {t : State} (h : step s = .next t) :
    s.fault = [] ∧ ((s.input = [] ∧ t = s) ∨
      ∃ it rest i u, s.input = it :: rest ∧ decodeItem s.seq it = some i ∧
        exec i { s with input := rest } = .next u ∧ t = resume s.seq u) := by
  by_cases hf : s.fault = []
  · refine ⟨hf, ?_⟩
    rw [step, whenRunning_ok hf] at h
    split at h
    · next hi => exact .inl ⟨hi, (Host.Outcome.next.inj h).symm⟩
    · next it rest hi =>
      split at h
      · cases h
      · next i hd =>
        cases hu : exec i { s with input := rest } with
        | next u =>
          rw [hu] at h
          exact .inr ⟨it, rest, i, u, hi, hd, hu, (Host.Outcome.next.inj h).symm⟩
        | fault r => rw [hu] at h; cases h
        | refused r => rw [hu] at h; cases h
  · rw [step_halted hf] at h
    cases h

/-! ### Runs of the machine behind the host's interface -/

/-- A run of the machine: one step, then the rest. -/
theorem core_run_step {u : State} (n : Nat) (h : step s = .next u) : core.run (n + 1) s = core.run n u := by
  have e : core.step s = .next u := h
  simp only [Host.Core.run, e]

/-- A run of the machine in two parts. -/
theorem core_run_add {u : State} (a b : Nat) (h : core.run a s = .next u) : core.run (a + b) s = core.run b u := by
  induction a generalizing s with
  | zero =>
    cases h
    rw [Nat.zero_add]
  | succ a ih =>
    cases e : step s with
    | next t =>
      rw [core_run_step a e] at h
      rw [show a + 1 + b = a + b + 1 by omega, core_run_step (a + b) e, ih h]
    | fault r => simp only [Host.Core.run, show core.step s = .fault r from e] at h; cases h
    | refused r => simp only [Host.Core.run, show core.step s = .refused r from e] at h; cases h

end Sys2Proof.Machine
end

