-- ==== Sys2Proof/Laws/Access.lean ====
section
/-!
SUPPORT. Everything a meaning can do: the accesses through the bus as one relation between states, the fault a run of them
can end in, and the inversion of exec that later invariants are proved from.
-/

namespace Sys2Proof.Machine

/-- The part of the invariant that an access can disturb. -/
def State.sound (s : State) : Prop :=
  Memory.wf s.mem = true ∧ s.addr.inRange = true ∧ lastmmOk s.params s.lastmm = true

/-- `t` is `s` after a run of READ_ADV, WRITE_ADV and compares that took no fault. -/
structure Access (s t : State) : Prop where
  rest : t = { s with addr := t.addr, mem := t.mem, lastmm := t.lastmm }
  unknown : s.addr = .unknown → t = s
  known : s.addr ≠ .unknown → t.addr ≠ .unknown
  mem : t.mem ≠ s.mem → s.wp = .deasserted ∧ s.mode = .write ∧ s.addr ≠ .unknown
  sound : s.sound → t.sound

/-- `t` is what a run of accesses from `s` leaves where it takes a fault. -/
def Faulted (s t : State) : Prop := ∃ c op u, Access s u ∧ t = raiseFault c op u

theorem Access.refl (s : State) : Access s s := ⟨rfl, fun _ => rfl, id, fun h => absurd rfl h, id⟩

theorem Access.trans {s t u : State} (h : Access s t) (g : Access t u) : Access s u where
  rest := by rw [g.rest, h.rest]
  unknown hs := by rw [g.unknown (by rw [h.unknown hs]; exact hs), h.unknown hs]
  known hs := g.known (h.known hs)
  mem hne := by
    by_cases e : u.mem = t.mem
    · exact h.mem (by rw [← e]; exact hne)
    · obtain ⟨hw, hm, hk⟩ := g.mem e
      rw [h.rest] at hw hm
      exact ⟨hw, hm, fun hs => hk (by rw [h.unknown hs]; exact hs)⟩
  sound hs := g.sound (h.sound hs)

theorem Access.faulted {s t u : State} (h : Access s t) (g : Faulted t u) : Faulted s u := by
  obtain ⟨c, op, v, ha, rfl⟩ := g
  exact ⟨c, op, v, h.trans ha, rfl⟩

theorem Faulted.here (c : FaultCode) (op : FaultOp) (s : State) : Faulted s (raiseFault c op s) :=
  ⟨c, op, s, .refl s, rfl⟩

section
variable (s : State)

/-- What `Access` keeps, field by field. -/
theorem Access.fields {s t : State} (h : Access s t) :
    t.mode = s.mode ∧ t.wp = s.wp ∧ t.seq = s.seq ∧ t.ofs = s.ofs ∧ t.fault = s.fault ∧ t.out = s.out ∧
      t.input = s.input ∧ t.result = s.result ∧ t.draws = s.draws ∧ t.params = s.params := by
  rw [h.rest]
  exact ⟨rfl, rfl, rfl, rfl, rfl, rfl, rfl, rfl, rfl, rfl⟩

theorem access_of_read {s : State} {a : Nat} (x : Option Nat) (ha : s.addr = .val a) (h : a < 1024)
    (hx : x = s.lastmm ∨ x = mismatchAt s.params s.addr) :
    Access s { s with addr := .val (a + 1), lastmm := x } where
  rest := rfl
  unknown hu := by rw [ha] at hu; cases hu
  known _ := by simp
  mem hne := absurd rfl hne
  sound hs := by
    refine ⟨hs.1, by simpa [Counter.inRange] using h, ?_⟩
    obtain rfl | rfl := hx
    · exact hs.2.2
    · rw [ha]
      cases hp : s.params.mismatchAddr <;> simp [mismatchAt, lastmmOk, hp] <;> omega

theorem opReadAdv_access : (opReadAdv s).EndsIn (Access s) (Faulted s) := by
  cases ha : s.addr with
  | unknown => rw [opReadAdv_unknown ha]; exact .here _ _ s
  | val a =>
    by_cases hm : s.mode = .read
    · by_cases h : a < 1024
      · rw [opReadAdv_ok ha hm h]; exact access_of_read s.lastmm ha h (.inl rfl)
      · rw [opReadAdv_pastEnd ha hm (by omega)]; exact .here _ _ s
    · rw [opReadAdv_mode ha hm]; exact .here _ _ s

theorem opWriteAdv_access (n : Nibble) : (opWriteAdv n s).EndsIn (Access s) (Faulted s) := by
  cases ha : s.addr with
  | unknown => rw [opWriteAdv_unknown n ha]; exact .here _ _ s
  | val a =>
    by_cases hm : s.mode = .write
    · cases hw : s.wp with
      | asserted => rw [opWriteAdv_wp n ha hm hw]; exact .here _ _ s
      | deasserted =>
        by_cases h : a < 1024
        · rw [opWriteAdv_ok n ha hm hw h]
          exact show Access s _ from
            ⟨rfl, fun hu => (by rw [ha] at hu; cases hu), fun _ => by simp, fun _ => ⟨hw, hm, by simp [ha]⟩,
              fun hs => ⟨Memory.write_wf n h hs.1, by simpa [Counter.inRange] using h, hs.2.2⟩⟩
        · rw [opWriteAdv_pastEnd n ha hm hw (by omega)]; exact .here _ _ s
    · rw [opWriteAdv_mode n ha hm]; exact .here _ _ s

/-- Pieces one after the other, each of them accesses, are accesses. -/
theorem forEach_access {α : Type} {f : α → State → Run Unit} (hf : ∀ x s, (f x s).EndsIn (Access s) (Faulted s))
    (xs : List α) : (forEach f xs s).EndsIn (Access s) (Faulted s) := by
  refine forEach_endsIn (fun x t ht => ?_) xs s (.refl s)
  have := hf x t
  cases hr : f x t with
  | done a u => rw [hr] at this; exact ht.trans this
  | raised u => rw [hr] at this; exact ht.faulted this

theorem readMany_access (n : Nat) : (readMany n s).EndsIn (Access s) (Faulted s) := by
  refine readMany_endsIn (fun t ht => ?_) n s (.refl s)
  have := opReadAdv_access t
  cases hr : opReadAdv t with
  | done a u => rw [hr] at this; exact ht.trans this
  | raised u => rw [hr] at this; exact ht.faulted this

theorem opSkip_access (n : Nat) : (opSkip n s).EndsIn (Access s) (Faulted s) :=
  (readMany_access s n).next fun _ _ h => h

theorem opEncodeRecord_access (a : Nat) : (opEncodeRecord a s).EndsIn (Access s) (Faulted s) :=
  (readMany_access s _).next fun _ _ h => h

theorem opParseLine_access (l : Line) : (opParseLine l s).EndsIn (Access s) (Faulted s) := by
  by_cases hl : classify l = .data
  · rw [opParseLine_eq hl]
    split
    · exact .refl s
    · exact .refl s
    · exact .here _ _ s
  · rw [opParseLine_other hl]
    exact .refl s

theorem programNibble_access (v : Nibble) : (programNibble v s).EndsIn (Access s) (Faulted s) := by
  rw [programNibble]
  split
  · exact .refl s
  · exact opWriteAdv_access s v

theorem verifyNibble_access (v : Nibble) : (verifyNibble v s).EndsIn (Access s) (Faulted s) := by
  cases ha : s.addr with
  | unknown => rw [verifyNibble, opReadAdv_unknown ha]; exact .here _ _ s
  | val a =>
    by_cases hm : s.mode = .read
    · by_cases h : a < 1024
      · rw [verifyNibble_ok v ha hm h]
        exact access_of_read _ ha h (by rw [ha]; split <;> simp)
      · rw [verifyNibble, opReadAdv_pastEnd ha hm (by omega)]; exact .here _ _ s
    · rw [verifyNibble, opReadAdv_mode ha hm]; exact .here _ _ s

theorem opLine_access {f : Nibble → State → Run Unit} (hf : ∀ x s, (f x s).EndsIn (Access s) (Faulted s)) (l : Line) :
    (opLine f l s).EndsIn (Access s) (Faulted s) := by
  rw [opLine]
  split
  · exact .refl s
  · exact .refl s
  · next hc =>
    rw [opParseLine_eq hc]
    split
    · next vs _ => exact (forEach_access s hf vs).next fun _ _ h => h
    · exact .refl s
    · exact .here _ _ s

end

/-! ### Reads and compares leave the memory alone -/

/-- READ_ADV never writes a nibble, faulted or not. -/
theorem opReadAdv_mem (s : State) : (opReadAdv s).EndsIn (fun t => t.mem = s.mem) (fun t => t.mem = s.mem) := by
  cases ha : s.addr with
  | unknown => rw [opReadAdv_unknown ha]; exact rfl
  | val a =>
    by_cases hm : s.mode = .read
    · by_cases h : a < 1024
      · rw [opReadAdv_ok ha hm h]; exact rfl
      · rw [opReadAdv_pastEnd ha hm (by omega)]; exact rfl
    · rw [opReadAdv_mode ha hm]; exact rfl

theorem readMany_mem (n : Nat) (s : State) :
    (readMany n s).EndsIn (fun t => t.mem = s.mem) (fun t => t.mem = s.mem) :=
  readMany_endsIn (fun t ht => ht ▸ opReadAdv_mem t) n s rfl

/-- SKIP never writes a nibble. -/
theorem opSkip_mem (n : Nat) (s : State) : (opSkip n s).EndsIn (fun t => t.mem = s.mem) (fun t => t.mem = s.mem) :=
  (readMany_mem n s).next fun _ _ h => h

/-- A compare of VERIFY_LINE never writes a nibble. -/
theorem verifyNibble_mem (v : Nibble) (s : State) :
    (verifyNibble v s).EndsIn (fun t => t.mem = s.mem) (fun t => t.mem = s.mem) := by
  refine (opReadAdv_mem s).next fun r t h => ?_
  show (if r = v then t else { t with lastmm := mismatchAt s.params s.addr }).mem = s.mem
  split <;> exact h

/-- VERIFY_LINE never writes a nibble (R188). -/
theorem opLine_verify_mem (l : Line) (s : State) :
    (opLine verifyNibble l s).EndsIn (fun t => t.mem = s.mem) (fun t => t.mem = s.mem) := by
  rw [opLine]
  split
  · exact rfl
  · exact rfl
  · next hc =>
    rw [opParseLine_eq hc]
    split
    · next vs _ =>
      rw [Run.next_done]
      exact (forEach_endsIn (P := fun t => t.mem = s.mem) (fun x t ht => ht ▸ verifyNibble_mem x t) vs s rfl).next
        fun _ _ h => h
    · exact rfl
    · exact rfl

/-- The memory after a run that keeps it. -/
theorem finish_mem {s t : State} {r : Run Result} (e : finish r = .next t)
    (h : r.EndsIn (fun t => t.mem = s.mem) (fun t => t.mem = s.mem)) : t.mem = s.mem := by
  cases r <;> · cases e; exact h

/-- How an operation other than a session or a mode change can end: with a value after accesses from `s`, or faulted. -/
def Plain (s t : State) : Prop := (∃ u v, Access s u ∧ t = { u with result := v }) ∨ Faulted s t

theorem plain_of_run {s t : State} {r : Run Result} (e : finish r = .next t) (h : r.EndsIn (Access s) (Faulted s)) :
    Plain s t := by
  cases r with
  | done v u => cases e; exact .inl ⟨u, v, h, rfl⟩
  | raised u => cases e; exact .inr h

theorem hostWord_next {w : Byte} {f : State → Run Result} {s t : State} (h : hostWord w f s = .next t) :
    s.fault = [] ∧ ((s.seq = .idle ∧ finish (f s) = .next t) ∨ t = raiseFault .busy (.word w) s) := by
  by_cases hf : s.fault = []
  · by_cases hq : s.seq = .idle
    · rw [hostWord_idle w f hf hq] at h; exact ⟨hf, .inl ⟨hq, h⟩⟩
    · rw [hostWord_busy w f hf hq] at h; cases h; exact ⟨hf, .inr rfl⟩
  · rw [hostWord_halted w f hf] at h; cases h

theorem hostCommand_next {f : State → Run Result} {s t : State} (h : hostCommand f s = .next t) :
    s.fault = [] ∧ s.seq = .idle ∧ finish (f s) = .next t := by
  by_cases hf : s.fault = []
  · by_cases hq : s.seq = .idle
    · rw [hostCommand_idle f hf hq] at h; exact ⟨hf, hq, h⟩
    · rw [hostCommand_session f hf hq] at h; cases h
  · rw [hostCommand_halted f hf] at h; cases h

theorem sequencerStep_next {f : State → Run Result} {s t : State} (h : sequencerStep f s = .next t) :
    s.fault = [] ∧ finish (f s) = .next t := by
  by_cases hf : s.fault = []
  · rw [sequencerStep_ok f hf] at h; exact ⟨hf, h⟩
  · rw [sequencerStep_halted f hf] at h; cases h

theorem whenRunning_next {k : Host.Outcome State Fault Refusal} {s t : State} (h : whenRunning s k = .next t) :
    s.fault = [] ∧ k = .next t := by
  by_cases hf : s.fault = []
  · rw [whenRunning_ok hf] at h; exact ⟨hf, h⟩
  · rw [whenRunning_halted hf] at h; cases h

/-- The effect of an operation that only an idle block runs: RESET (with the reads of a SEEK after it), the modes, write
protect, and the command lines. -/
inductive IdleEffect (s : State) : State → Prop
  | seek (t : State) (h : Plain (opReset s) t) (hm : t.mem = s.mem) : IdleEffect s t
  | modeRead : IdleEffect s { opModeRead s with result := .none }
  | modeWrite : IdleEffect s { opModeWrite s with result := .none }
  | wpAssert : IdleEffect s { opWpAssert s with result := .none }
  | wpDeassert : IdleEffect s { opWpDeassert s with result := .none }
  | read : IdleEffect s { s with
      addr := .val 1024, mode := .read, seq := .idle, result := .none,
      out := s.out ++ (List.range 16).map (dumpEvent s.params s.mem) }
  | program : IdleEffect s { programStart s with result := .none }
  | verify : IdleEffect s { verifyStart s with result := .none }
  | list : IdleEffect s { s with
      addr := .val 1024, mode := .read, seq := .idle, ofs := filledTable s.params s.mem, result := .none,
      draws := s.draws + drawsBelow s.mem 34, out := s.out ++ walkEvents s.params s.mem s.draws }

/-- Everything an instruction that answers a next state can do. -/
theorem exec_next {i : Instr} {s t : State} (h : exec i s = .next t) :
    s.fault = [] ∧ (Plain s t ∨ (s.seq = .idle ∧ IdleEffect s t)) := by
  have pure {v : Result} (g : returnValue v s = .next t) : s.fault = [] ∧ (Plain s t ∨ (s.seq = .idle ∧ IdleEffect s t)) := by
    obtain ⟨hf, e⟩ := sequencerStep_next g
    exact ⟨hf, .inl (plain_of_run e (Access.refl s))⟩
  have word {w : Byte} {f : State → Run Result} (g : hostWord w f s = .next t)
      (k : s.seq = .idle → finish (f s) = .next t → Plain s t ∨ (s.seq = .idle ∧ IdleEffect s t)) :
      s.fault = [] ∧ (Plain s t ∨ (s.seq = .idle ∧ IdleEffect s t)) := by
    obtain ⟨hf, ⟨hq, e⟩ | rfl⟩ := hostWord_next g
    · exact ⟨hf, k hq e⟩
    · exact ⟨hf, .inl (.inr (.here _ _ s))⟩
  have command {f : State → Run Result} (g : hostCommand f s = .next t)
      (k : s.seq = .idle → finish (f s) = .next t → Plain s t ∨ (s.seq = .idle ∧ IdleEffect s t)) :
      s.fault = [] ∧ (Plain s t ∨ (s.seq = .idle ∧ IdleEffect s t)) := by
    obtain ⟨hf, hq, e⟩ := hostCommand_next g
    exact ⟨hf, k hq e⟩
  have seqr {f : State → Run Result} (g : sequencerStep f s = .next t)
      (k : (f s).EndsIn (Access s) (Faulted s)) : s.fault = [] ∧ (Plain s t ∨ (s.seq = .idle ∧ IdleEffect s t)) := by
    obtain ⟨hf, e⟩ := sequencerStep_next g
    exact ⟨hf, .inl (plain_of_run e k)⟩
  cases i with
  | reset =>
    rw [exec_reset] at h
    exact word h fun hq e => by cases e; exact .inr ⟨hq, .seek _ (.inl ⟨_, .none, .refl _, rfl⟩) rfl⟩
  | modeRead =>
    rw [exec_modeRead] at h
    exact word h fun hq e => by cases e; exact .inr ⟨hq, .modeRead⟩
  | modeWrite =>
    rw [exec_modeWrite] at h
    exact word h fun hq e => by cases e; exact .inr ⟨hq, .modeWrite⟩
  | wpAssert =>
    rw [exec_wpAssert] at h
    exact word h fun hq e => by cases e; exact .inr ⟨hq, .wpAssert⟩
  | wpDeassert =>
    rw [exec_wpDeassert] at h
    exact word h fun hq e => by cases e; exact .inr ⟨hq, .wpDeassert⟩
  | readAdv =>
    rw [exec_readAdv] at h
    exact word h fun _ e => .inl (plain_of_run e ((opReadAdv_access s).next fun _ _ h => h))
  | writeAdv n =>
    rw [exec_writeAdv] at h
    exact word h fun _ e => .inl (plain_of_run e ((opWriteAdv_access s n).next fun _ _ h => h))
  | cmdRead c =>
    rw [exec_cmdRead] at h
    exact command h fun hq e => by rw [readSession_eq] at e; cases e; exact .inr ⟨hq, .read⟩
  | cmdProgram c =>
    rw [exec_cmdProgram] at h
    exact command h fun hq e => by cases e; exact .inr ⟨hq, .program⟩
  | cmdVerify c =>
    rw [exec_cmdVerify] at h
    exact command h fun hq e => by cases e; exact .inr ⟨hq, .verify⟩
  | cmdList c =>
    rw [exec_cmdList] at h
    exact command h fun hq e => by rw [listSession_eq] at e; cases e; exact .inr ⟨hq, .list⟩
  | cmdNop c =>
    rw [exec_cmdNop] at h
    exact command h fun _ e => .inl (plain_of_run e (Access.refl s))
  | opwReserved w =>
    obtain ⟨hf, e⟩ := whenRunning_next h
    cases e; exact ⟨hf, .inl (.inr (.here _ _ s))⟩
  | decodeOffset _ _ =>
    rw [exec_decodeOffset] at h
    exact pure h
  | decodeFreq _ _ =>
    rw [exec_decodeFreq] at h
    exact pure h
  | normalize _ _ =>
    rw [exec_normalize] at h
    exact pure h
  | renderOffset _ _ =>
    rw [exec_renderOffset] at h
    exact pure h
  | renderFreq _ =>
    rw [exec_renderFreq] at h
    exact pure h
  | hexChar _ =>
    rw [exec_hexChar] at h
    exact pure h
  | hexValue _ =>
    rw [exec_hexValue] at h
    exact pure h
  | encodeRecord a =>
    rw [exec_encodeRecord] at h
    exact seqr h ((opEncodeRecord_access s a).next fun _ _ h => h)
  | label _ =>
    rw [exec_label] at h
    exact pure h
  | qualifyLine _ =>
    rw [exec_qualifyLine] at h
    exact pure h
  | classify _ =>
    rw [exec_classify] at h
    exact pure h
  | parseLine l =>
    rw [exec_parseLine] at h
    exact seqr h ((opParseLine_access s l).next fun p _ h => by cases p <;> exact h)
  | programLine l =>
    rw [exec_programLine] at h
    exact seqr h ((opLine_access s (fun v s => programNibble_access s v) l).next fun _ _ h => h)
  | verifyLine l =>
    rw [exec_verifyLine] at h
    exact seqr h ((opLine_access s (fun v s => verifyNibble_access s v) l).next fun _ _ h => h)
  | skip n =>
    cases n with
    | zero => rw [exec_skip_zero] at h; exact pure h
    | succ n =>
      rw [exec_skip_succ] at h
      exact word h fun _ e => .inl (plain_of_run e ((opSkip_access s _).next fun _ _ h => h))
  | seek a =>
    rw [exec_seek] at h
    exact word h fun hq e => .inr ⟨hq, .seek _ (plain_of_run e ((opSkip_access (opReset s) a).next fun _ _ h => h))
      (finish_mem (s := opReset s) e ((opSkip_mem a (opReset s)).next fun _ _ h => h))⟩

end Sys2Proof.Machine
end

