-- ==== Sys2Proof/Laws/PerInstr.lean ====
section
/-!
SUPPORT. One law per instruction, as syntax: the operation word an instruction is encoded as is a reserved word
(30_encoding.md R72) only for OPW_RESERVED.
-/

namespace Sys2Proof.Laws.OperationWord

/-- The word of a well-formed instruction is reserved exactly where the instruction is OPW_RESERVED. -/
def Statement (i : Instr) : Prop :=
  i.wf = true → ∀ w, encode i = some (.word w) → (wordReserved w = true ↔ i = .opwReserved w)

/-- An instruction without an operation word. -/
theorem of_no_word {i : Instr} (h : ∀ w, encode i ≠ some (.word w)) : Statement i := fun _ w e => absurd e (h w)

theorem reset : Statement .reset := fun _ w e => by
  obtain rfl : _ = w := HostItem.word.inj (Option.some.inj e)
  decide

theorem modeRead : Statement .modeRead := fun _ w e => by
  obtain rfl : _ = w := HostItem.word.inj (Option.some.inj e)
  decide

theorem modeWrite : Statement .modeWrite := fun _ w e => by
  obtain rfl : _ = w := HostItem.word.inj (Option.some.inj e)
  decide

theorem wpAssert : Statement .wpAssert := fun _ w e => by
  obtain rfl : _ = w := HostItem.word.inj (Option.some.inj e)
  decide

theorem wpDeassert : Statement .wpDeassert := fun _ w e => by
  obtain rfl : _ = w := HostItem.word.inj (Option.some.inj e)
  decide

theorem readAdv : Statement .readAdv := fun _ w e => by
  obtain rfl : _ = w := HostItem.word.inj (Option.some.inj e)
  decide

theorem writeAdv (n : Nibble) : Statement (.writeAdv n) := fun _ w e => by
  obtain rfl : _ = w := HostItem.word.inj (Option.some.inj e)
  revert n
  decide

theorem cmdRead (c : Line) : Statement (.cmdRead c) := of_no_word fun _ e => by cases e

theorem cmdProgram (c : Line) : Statement (.cmdProgram c) := of_no_word fun _ e => by cases e

theorem cmdVerify (c : Line) : Statement (.cmdVerify c) := of_no_word fun _ e => by cases e

theorem cmdList (c : Line) : Statement (.cmdList c) := of_no_word fun _ e => by cases e

theorem cmdNop (c : Line) : Statement (.cmdNop c) := of_no_word fun _ e => by cases e

theorem opwReserved (w : Byte) : Statement (.opwReserved w) := fun h v e => by
  obtain rfl : _ = v := HostItem.word.inj (Option.some.inj e)
  exact ⟨fun _ => rfl, fun _ => h⟩

theorem decodeOffset (lo : Nibble) (hi : Nibble) : Statement (.decodeOffset lo hi) := of_no_word fun _ e => by cases e

theorem decodeFreq (fb : FreqField) (ofs : Int) : Statement (.decodeFreq fb ofs) := of_no_word fun _ e => by cases e

theorem normalize (m : Int) (a : Int) : Statement (.normalize m a) := of_no_word fun _ e => by cases e

theorem renderOffset (lo : Nibble) (hi : Nibble) : Statement (.renderOffset lo hi) := of_no_word fun _ e => by cases e

theorem renderFreq (r : FreqResult) : Statement (.renderFreq r) := of_no_word fun _ e => by cases e

theorem hexChar (v : Nibble) : Statement (.hexChar v) := of_no_word fun _ e => by cases e

theorem hexValue (c : Byte) : Statement (.hexValue c) := of_no_word fun _ e => by cases e

theorem encodeRecord (a : Nat) : Statement (.encodeRecord a) := of_no_word fun _ e => by cases e

theorem label (a : Nat) : Statement (.label a) := of_no_word fun _ e => by cases e

theorem qualifyLine (l : Line) : Statement (.qualifyLine l) := of_no_word fun _ e => by cases e

theorem classify (l : Line) : Statement (.classify l) := of_no_word fun _ e => by cases e

theorem parseLine (l : Line) : Statement (.parseLine l) := of_no_word fun _ e => by cases e

theorem programLine (l : Line) : Statement (.programLine l) := of_no_word fun _ e => by cases e

theorem verifyLine (l : Line) : Statement (.verifyLine l) := of_no_word fun _ e => by cases e

theorem skip (n : Nat) : Statement (.skip n) := of_no_word fun _ e => by cases e

theorem seek (a : Nat) : Statement (.seek a) := of_no_word fun _ e => by cases e

end Sys2Proof.Laws.OperationWord
end

