-- ==== Sys2Proof/Laws/Render.lean ====
section
/-!
SUPPORT. Where the display texts are the rules' own, and where a part of them is a free value.
-/

namespace Sys2Proof.Machine

/-- Inside the operands of LABEL its text is the three hex digits (R183). -/
theorem label_inside {a : Nat} (h : a < 1024) :
    label a =
      [hexChar (BitVec.ofNat 4 (a / 256)), hexChar (BitVec.ofNat 4 (a / 16 % 16)), hexChar (BitVec.ofNat 4 (a % 16))] :=
  if_pos h

/-- Outside them the text is the free value. -/
theorem label_outside {a : Nat} (h : ¬ a < 1024) : label a = Config.unstatedLabel a := if_neg h

@[simp] theorem paddedInt_natCast (w n : Nat) : paddedInt w (n : Int) = padded w n := by
  simp [paddedInt]

/-- The kHz field of an accumulator that is not negative (R136). -/
theorem kHzField_nonneg {a : Int} (h : 0 ≤ a) (d0 : Nibble) :
    kHzField a d0 = padded 3 (a.toNat / 10) ++ [chr '.'] ++ padded 2 (a.toNat % 10 * 10 + d0.toNat) := by
  rw [kHzField, if_neg (Int.not_lt.2 h), kHzNumerals, paddedInt_natCast, ← paddedInt_natCast 2]
  rfl

/-- The kHz field of a negative accumulator is R136's of some quotient and remainder. -/
theorem kHzField_neg {a : Int} (h : a < 0) (d0 : Nibble) :
    kHzField a d0 = kHzNumerals (Config.negQuotient a) (Config.negRemainder a) d0 := if_pos h

end Sys2Proof.Machine
end

