-- ==== Sys2Proof/Tests/Slice0.lean ====
section
/-!
SUPPORT. Tests of the model against the spec's own vectors (95_test_vectors.md, written as its D-, X- and P-numbers), the
ill-formed terms the checks refuse, the words written out from the encoding tables, and, for every statement with
hypotheses, a state and operands that meet them.
-/

namespace Sys2Proof.Tests

open Sys2Proof.Machine Sys2Proof.Spec

/-! ### Small states and lines -/

/-- A block whose counter and bus direction are set. -/
def ready (a : Nat) (m : BusMode) : State := { State.reset with addr := .val a, mode := m }

/-- A block that may write at `a`. -/
def writable (a : Nat) : State := { ready a .write with wp := .deasserted }

/-- A block that waits for a line of a Program session. -/
def inProgram (a : Nat) : State := { writable a with seq := .programS }

/-- A block that waits for a line of a Verify session. -/
def inVerify (a : Nat) : State := { ready a .read with seq := .verifyS }

/-- A block that has taken a fault. -/
def stopped : State := { State.reset with fault := [⟨.addrUnknown, .word 0x60#8, .unknown⟩] }

/-- Another HEX_POLICY. -/
def withPolicy (h : HexPolicy) (s : State) : State := { s with params := { s.params with hexPolicy := h } }

/-- A text as a line. -/
def text (t : String) : Line := t.toList.map chr

/-- "000  " and 64 times a character. -/
def record (c : Char) : Line := text "000  " ++ List.replicate 64 (chr c)

/-- The record of 95_test_vectors.md 2.5 with 'G' at index 40. -/
def badRecord : Line := text "000  " ++ List.replicate 35 (chr 'A') ++ [chr 'G'] ++ List.replicate 28 (chr 'A')

/-- What a test looks at in the next state. -/
def look {α : Type} (f : State → α) : Host.Outcome State Fault Refusal → Option α
  | .next t => some (f t)
  | .fault _ => none
  | .refused _ => none

/-! ### Well-formedness: one ill-formed term for each check -/

theorem test_wf_cmdRead : (Instr.cmdRead (text "P")).wf = false := by decide
theorem test_wf_cmdProgram : (Instr.cmdProgram (text "R")).wf = false := by decide
theorem test_wf_cmdVerify : (Instr.cmdVerify []).wf = false := by decide
theorem test_wf_cmdList : (Instr.cmdList (text "x")).wf = false := by decide
theorem test_wf_cmdNop : (Instr.cmdNop (text "list")).wf = false := by decide
theorem test_wf_opwReserved : (Instr.opwReserved 0x7F#8).wf = false := by decide
theorem test_wf_encodeRecord_aligned : (Instr.encodeRecord 0x41).wf = false := by decide
theorem test_wf_encodeRecord_range : (Instr.encodeRecord 0x400).wf = false := by decide
theorem test_wf_label : (Instr.label 0x400).wf = false := by decide
theorem test_wf_parseLine : (Instr.parseLine (text "400  ")).wf = false := by decide
theorem test_wf_seek : (Instr.seek 1025).wf = false := by decide

/-! ### Decoding: words from the bit patterns of 30_encoding.md R71 and the characters of R73 -/

theorem test_decode_reset : decodeWord 0b00010000#8 = .reset := by decide
theorem test_decode_modeRead : decodeWord 0b00100000#8 = .modeRead := by decide
theorem test_decode_modeWrite : decodeWord 0b00110000#8 = .modeWrite := by decide
theorem test_decode_wpAssert : decodeWord 0b01000000#8 = .wpAssert := by decide
theorem test_decode_wpDeassert : decodeWord 0b01010000#8 = .wpDeassert := by decide
theorem test_decode_readAdv : decodeWord 0b01100000#8 = .readAdv := by decide
theorem test_decode_writeAdv : decodeWord 0b01111010#8 = .writeAdv 0b1010#4 := by decide
theorem test_decode_reserved :
    decodeWord 0b00000000#8 = .opwReserved 0x00#8 ∧ decodeWord 0b01100001#8 = .opwReserved 0x61#8 ∧
      decodeWord 0b10000000#8 = .opwReserved 0x80#8 := by decide
theorem test_decode_cmdRead : decodeCommand (text "rubbish") = .cmdRead (text "rubbish") := by decide
theorem test_decode_cmdProgram : decodeCommand [0b01110000#8] = .cmdProgram [0x70#8] := by decide
theorem test_decode_cmdVerify : decodeCommand [0b01010110#8] = .cmdVerify [0x56#8] := by decide
theorem test_decode_cmdList : decodeCommand (text "list") = .cmdList (text "list") := by decide
theorem test_decode_cmdNop : decodeCommand (text " R") = .cmdNop (text " R") ∧ decodeCommand [] = .cmdNop [] := by decide
theorem test_decode_programLine : decodeItem .programS (.line (text "R")) = some (.programLine (text "R")) := by decide
theorem test_decode_verifyLine : decodeItem .verifyS (.line []) = some (.verifyLine []) := by decide
theorem test_expansion : (Instr.seek 2).expansion = [0x10#8, 0x60#8, 0x60#8] ∧ (Instr.skip 2).expansion = [0x60#8, 0x60#8] := by
  decide

/-- The words of the opcode table; 0x50 is read as WP_DEASSERT, not as the character 'P' (notes/assumptions/14.md). -/
theorem test_decode_table :
    decodeTableWord 8 0x10 = some .reset ∧ decodeTableWord 8 0x52 = some (.cmdRead [0x52#8]) ∧
      decodeTableWord 8 0x50 = some .wpDeassert ∧ decodeTableWord 16 0x10 = none := by decide

/-- The word placed by withFetchWord runs at the next step, from the reset state. -/
theorem test_fetch : look (·.addr) (step (State.reset.withFetchWord 8 0x10)) = some (.val 0) := by decide

/-! ### Driver operations (95_test_vectors.md 2.1) -/

/-- D-3 -/
theorem test_reset_power_on :
    look (fun t => (t.addr, t.mode, t.wp, t.fault)) (exec .reset State.reset) = some (.val 0, .unconf, .asserted, []) := by
  decide
/-- D-24 -/
theorem test_reset_busy :
    look (fun t => (t.addr, t.fault)) (exec .reset (inProgram 0)) = some (.val 0, [⟨.busy, .word 0x10#8, .val 0⟩]) := by
  decide
/-- D-18 -/
theorem test_modeRead : look (fun t => (t.mode, t.addr)) (exec .modeRead (ready 12 .write)) = some (.read, .val 12) := by
  decide
/-- D-19 -/
theorem test_modeWrite : look (fun t => (t.mode, t.wp)) (exec .modeWrite (ready 0 .read)) = some (.write, .asserted) := by
  decide
/-- D-21 -/
theorem test_wpAssert : look (·.wp) (exec .wpAssert (writable 0)) = some .asserted := by decide
/-- D-20 -/
theorem test_wpDeassert : look (·.wp) (exec .wpDeassert State.reset) = some .deasserted := by decide
/-- D-10 -/
theorem test_readAdv_last :
    look (fun t => (t.result, t.addr)) (exec .readAdv { ready 1023 .read with mem := [(1023, 0x02#8)] }) =
      some (.nibble 2#4, .val 1024) := by decide
/-- D-11 -/
theorem test_readAdv_past_end :
    look (fun t => (t.addr, t.fault)) (exec .readAdv (ready 1024 .read)) =
      some (.val 1024, [⟨.pastEnd, .word 0x60#8, .val 1024⟩]) := by decide
/-- D-7 -/
theorem test_writeAdv :
    look (fun t => (t.mem, t.addr)) (exec (.writeAdv 3#4) (writable 5)) = some ([(5, 0x03#8)], .val 6) := by decide
/-- D-2: F_ADDR_UNKNOWN comes before F_MODE and F_WP. -/
theorem test_writeAdv_priority :
    look (fun t => (t.mem, t.fault)) (exec (.writeAdv 0xA#4) State.reset) =
      some ([], [⟨.addrUnknown, .word 0x7A#8, .unknown⟩]) := by decide
/-- D-16: F_RESERVED comes before F_ADDR_UNKNOWN. -/
theorem test_opwReserved :
    look (·.fault) (exec (decodeWord 0x61#8) State.reset) = some [⟨.reserved, .word 0x61#8, .unknown⟩] := by decide
/-- D-22 -/
theorem test_skip : look (·.addr) (exec (.skip 16) (ready 7 .read)) = some (.val 23) := by decide
/-- P5, from address 1020: the fault is at 1024. -/
theorem test_skip_past_end :
    look (fun t => (t.addr, t.fault)) (exec (.skip 5) (ready 1020 .read)) =
      some (.val 1024, [⟨.pastEnd, .word 0x60#8, .val 1024⟩]) := by decide
/-- D-23 -/
theorem test_seek : look (·.addr) (exec (.seek 0x12A) (ready 517 .read)) = some (.val 0x12A) := by decide +kernel

/-! ### Codec (95_test_vectors.md 2.2, 2.3) -/

theorem test_decodeOffset_least : look (·.result) (exec (.decodeOffset 0xF#4 0xF#4) State.reset) = some (.offset (-85)) := by
  decide
/-- X2 -/
theorem test_decodeOffset_negative :
    look (·.result) (exec (.decodeOffset 5#4 0b1010#4) State.reset) = some (.offset (-25)) := by decide
/-- X5: carry. -/
theorem test_decodeFreq_carry :
    look (·.result) (exec (.decodeFreq ⟨5, 9, 9, 9, 9, 4, 1, 0, 0⟩ 25) State.reset) = some (.freq (.freq 15 24 5#4)) := by
  decide
/-- X4: blank. -/
theorem test_decodeFreq_blank :
    look (·.result) (exec (.decodeFreq ⟨0xF, 1, 2, 3, 4, 5, 6, 7, 8⟩ (-85)) State.reset) = some (.freq .blank) := by decide
theorem test_normalize_borrow :
    look (·.result) (exec (.normalize 14 (-25)) State.reset) = some (.normalized 13 9975) := by decide
theorem test_normalize_one_step :
    look (·.result) (exec (.normalize 14 20000) State.reset) = some (.normalized 15 10000) := by decide
theorem test_renderOffset_minus_zero :
    look (·.result) (exec (.renderOffset 0#4 8#4) State.reset) = some (.text (text "-0.0 kHz")) := by decide
theorem test_renderOffset_wide :
    look (·.result) (exec (.renderOffset 0xF#4 7#4) State.reset) = some (.text (text "+7.15 kHz")) := by decide
theorem test_renderFreq_wide :
    look (·.result) (exec (.renderFreq (.freq 14 9 14#4)) State.reset) = some (.text (text "14 000.104 kHz")) := by
  decide +kernel
theorem test_renderFreq_negative :
    look (·.result) (exec (.renderFreq (.freq (-1) 9915 0#4)) State.reset) = some (.text (text "-1 991.50 kHz")) := by
  decide +kernel

/-! ### Transport functions (95_test_vectors.md 2.4, 2.5) -/

theorem test_hexChar : look (·.result) (exec (.hexChar 0xA#4) State.reset) = some (.char 0x41#8) := by decide
theorem test_hexValue_lower : look (·.result) (exec (.hexValue (chr 'f')) State.reset) = some (.hexVal 15) := by decide
theorem test_hexValue_neighbour : look (·.result) (exec (.hexValue (chr ':')) State.reset) = some (.hexVal 0xFF) := by decide
theorem test_label : look (·.result) (exec (.label 0x12A) State.reset) = some (.text (text "12A")) := by decide
/-- R183 states no text above 0x3FF: the operation completes all the same (notes/assumptions/27.md). -/
theorem test_label_outside : look (fun t => (t.fault, t.addr)) (exec (.label 0x400) (ready 7 .read)) = some ([], .val 7) := by
  decide
/-- X7: 68 characters. -/
theorem test_qualifyLine_short :
    look (·.result) (exec (.qualifyLine (text "000  " ++ List.replicate 63 (chr 'A'))) State.reset) =
      some (.truth false) := by decide +kernel
/-- X7: first character '4'. -/
theorem test_classify_prefix :
    look (·.result) (exec (.classify (text "400  " ++ List.replicate 64 (chr 'A'))) State.reset) = some (.kind .skip) := by
  decide +kernel
theorem test_parseLine_reject : look (·.result) (exec (.parseLine badRecord) State.reset) = some .rejected := by
  decide +kernel
theorem test_parseLine_clamp :
    look (·.result) (exec (.parseLine badRecord) (withPolicy .clamp4Bit State.reset)) =
      some (.parsed (List.replicate 35 0xA#4 ++ [0xF#4] ++ List.replicate 28 0xA#4)) := by decide +kernel
/-- R182: the last record ends at 1024. -/
theorem test_encodeRecord_last :
    look (fun t => (t.addr, t.result)) (exec (.encodeRecord 0x3C0) { ready 0x3C0 .read with mem := [(1023, 0x0C#8)] }) =
      some (.val 1024, .text (text "3C0  " ++ List.replicate 63 (chr '0') ++ [chr 'C'])) := by decide +kernel
/-- R182 above 0x3FF: only the label is open, so the record moves the counter by 64 (notes/assumptions/27.md). -/
theorem test_encodeRecord_outside :
    look (fun t => (t.fault, t.addr)) (exec (.encodeRecord 0x400) (ready 64 .read)) = some ([], .val 128) := by decide +kernel
theorem test_programLine_bound :
    look (fun t => (t.addr, t.mem)) (exec (.programLine (record '1')) (writable 1000)) =
      some (.val 1024, (List.range 24).map fun j => (1000 + j, 0x01#8)) := by decide +kernel
theorem test_programLine_hex_fault :
    look (fun t => (t.addr, t.mem, t.fault)) (exec (.programLine badRecord) (withPolicy .fault (writable 0))) =
      some (.val 0, [], [⟨.hex, .parseLine, .val 0⟩]) := by decide +kernel
/-- Two mismatches, at nibbles 3 and 9. -/
theorem test_verifyLine_last_mismatch :
    look (fun t => (t.addr, t.lastmm))
      (exec (.verifyLine (record '0')) { ready 0 .read with mem := [(3, 0x05#8), (9, 0x01#8)] }) =
      some (.val 64, some 9) := by decide +kernel
theorem test_verifyLine_past_end :
    look (·.fault) (exec (.verifyLine (record '0')) (ready 1024 .read)) =
      some [⟨.pastEnd, .word 0x60#8, .val 1024⟩] := by decide +kernel

/-! ### Sessions (95_test_vectors.md 2.7, 3) -/

/-- Image E1. -/
def imageE1 : Memory :=
  [(0x06, 5), (0x07, 0xA), (0x08, 5), (0x09, 2), (0x0D, 8), (0x0E, 9), (0x0F, 7), (0x20, 1), (0x2A, 3),
    (0x132, 1), (0x133, 5), (0x134, 9), (0x135, 9), (0x136, 9), (0x137, 9), (0x138, 4), (0x139, 1),
    (0x146, 3), (0x147, 4), (0x148, 5), (0x14A, 7), (0x156, 5), (0x157, 0xF), (0x168, 7), (0x16E, 4), (0x16F, 1)]

/-- P8's Read dump: records 0, 4 and 5. -/
theorem test_cmdRead_E1 :
    look (fun t => (t.out.length, t.out[0]?, t.out[4]?, t.out[5]?))
      (exec (.cmdRead (text "R")) { State.reset with mem := imageE1 }) =
      some (16, some (.line (text "000  0000005A52000897000000000000000010000000003000000000000000000000")),
        some (.line (text "100  0000000000000000000000000000000000000000000000000015999941000000")),
        some (.line (text "140  00000034507000000000005F0000000000000000700000410000000000000000"))) := by decide +kernel

/-- P8's events 1, 4, 7, 8, 9, 10 and 12, and how many there are. -/
theorem test_cmdList_E1 :
    look (fun t => (t.out.length, t.addr, t.ofs))
      (exec (.cmdList (text "L")) { State.reset with mem := imageE1 }) =
      some (41, .val 1024, [some (-25), some 25, some 0, some 0, some 79]) := by decide +kernel
theorem test_cmdList_E1_events :
    look (fun t => [t.out[0]?, t.out[3]?, t.out[6]?, t.out[7]?, t.out[8]?, t.out[9]?, t.out[11]?])
      (exec (.cmdList (text "L")) { State.reset with mem := imageE1 }) =
      some [some (.ofsEntry 0 true 2#4 5#4), some (.ofsEntry 3 true 0#4 0#4), some (.limit .high (.freq 30 0 0#4)),
        some (.channel (-1) 1#4 (.freq 15 24 5#4)), some (.channel 0 0#4 (.freq 7 518 0#4)),
        some (.channel 1 5#4 .blank), some (.channel 3 0#4 (.freq (-1) 9975 0#4))] := by decide +kernel

theorem test_cmdProgram :
    look (fun t => (t.seq, t.addr, t.mode, t.wp)) (exec (.cmdProgram (text "p")) State.reset) =
      some (.programS, .val 0, .write, .deasserted) := by decide
theorem test_cmdVerify :
    look (fun t => (t.seq, t.addr, t.mode, t.lastmm))
      (exec (.cmdVerify (text "V")) { State.reset with lastmm := some 9 }) = some (.verifyS, .val 0, .read, none) := by
  decide
theorem test_cmdNop : look (fun t => (t.seq, t.addr, t.out)) (exec (.cmdNop (text "x")) State.reset) =
    some (.idle, .unknown, []) := by decide

/-- P6: the empty line ends a Program session. -/
theorem test_program_end :
    look (fun t => (t.seq, t.mode, t.wp)) (step { inProgram 64 with input := [.line []] }) =
      some (.idle, .read, .asserted) := by decide
/-- P7: the report. -/
theorem test_verify_end :
    look (fun t => (t.seq, t.out)) (step { inVerify 1024 with lastmm := some 0x105, input := [.line []] }) =
      some (.idle, [.verifyResult (some 0x105)]) := by decide
/-- R67 and R20: across a power cycle the memory survives, and a later draw is a fresh one (notes/assumptions/5.md). -/
theorem test_powerCycle :
    ({ stopped with mem := imageE1, draws := 7, lastmm := some 3 } : State).powerCycle =
      { State.reset with mem := imageE1, draws := 7 } := by decide
/-- P4: a faulted block takes no step. -/
theorem test_stopped : step { stopped with input := [.word 0x10#8] } = .fault .halted := by rfl

/-! ### Every statement with hypotheses is about something: states and operands that meet them, clause by clause -/

theorem accepts_reset : Accepts State.reset := ⟨rfl, rfl⟩
theorem accepts_ready (a : Nat) (m : BusMode) : Accepts (ready a m) := ⟨rfl, rfl⟩
theorem accepts_writable (a : Nat) : Accepts (writable a) := ⟨rfl, rfl⟩

/-- The record of 64 times 'A' is a data line of hex digits. -/
theorem record_data : IsData (record 'A') := ⟨by decide, chr '0', rfl, by decide⟩
theorem record_allHex : AllHex Params.default (record 'A') := by unfold AllHex; decide +kernel
theorem record_usable : Usable Params.default (record 'A') := ⟨record_data, .inl record_allHex⟩

/-- The record with 'G' is a data line, not of hex digits. -/
theorem badRecord_data : IsData badRecord := ⟨by decide, chr '0', rfl, by decide⟩
theorem badRecord_notHex (p : Params) : ¬ AllHex p badRecord := fun h => h 35 (by decide) (by cases hp : p.acceptLower <;> simp only [charValue, hp] <;> decide)

theorem badRecord_usable : Usable (withPolicy .clamp4Bit State.reset).params badRecord := ⟨badRecord_data, .inr rfl⟩

/-- A line that is no data line and not empty. -/
theorem hello_notData : text "hello" ≠ [] ∧ ¬ IsData (text "hello") := ⟨by decide, fun h => absurd h.1 (by decide)⟩

theorem witness_ResetClearsCounter :
    (∃ s t, Accepts s ∧ exec .reset s = .next t) ∧ (∃ s : State, s.fault = [] ∧ s.seq ≠ .idle) ∧
      ∃ (n : Nibble) (s : State), n ≠ 0#4 ∧ s.fault = [] :=
  ⟨⟨State.reset, _, accepts_reset, rfl⟩, ⟨inProgram 0, rfl, by decide⟩, 1#4, State.reset, by decide, rfl⟩

/-- MODE_READ, MODE_WRITE, WP_ASSERT and WP_DEASSERT share the hypotheses of PlainWord. -/
theorem witness_PlainWord :
    Accepts State.reset ∧ ((inVerify 0).fault = [] ∧ (inVerify 0).seq ≠ .idle) ∧ (0xF#4 ≠ 0#4 ∧ State.reset.fault = []) :=
  ⟨accepts_reset, ⟨rfl, by decide⟩, by decide, rfl⟩

theorem witness_ReadAdvReadsThenAdvances :
    (Accepts (ready 1023 .read) ∧ (ready 1023 .read).addr = .val 1023 ∧ (ready 1023 .read).mode = .read) ∧
      (Accepts State.reset ∧ State.reset.addr = .unknown) ∧
      (Accepts (ready 1024 .write) ∧ (ready 1024 .write).mode ≠ .read) ∧
      (Accepts (ready 1024 .read) ∧ (ready 1024 .read).addr = .val 1024) ∧
      ((inProgram 0).fault = [] ∧ (inProgram 0).seq ≠ .idle) :=
  ⟨⟨accepts_ready _ _, rfl, rfl⟩, ⟨accepts_reset, rfl⟩, ⟨accepts_ready _ _, by decide⟩, ⟨accepts_ready _ _, rfl⟩, rfl,
    by decide⟩

theorem witness_WriteAdvStoresThenAdvances :
    (Accepts (writable 1023) ∧ Memory.wf (writable 1023).mem = true ∧ (writable 1023).addr = .val 1023 ∧
        (writable 1023).mode = .write ∧ (writable 1023).wp = .deasserted) ∧
      (Accepts State.reset ∧ State.reset.addr = .unknown) ∧
      (Accepts (ready 0 .read) ∧ (ready 0 .read).mode ≠ .write) ∧
      (Accepts (ready 0 .write) ∧ (ready 0 .write).mode = .write ∧ (ready 0 .write).wp = .asserted) ∧
      (Accepts (writable 1024) ∧ (writable 1024).addr = .val 1024) ∧
      ((inProgram 0).fault = [] ∧ (inProgram 0).seq ≠ .idle) :=
  ⟨⟨accepts_writable _, rfl, rfl, rfl, rfl⟩, ⟨accepts_reset, rfl⟩, ⟨accepts_ready _ _, by decide⟩,
    ⟨accepts_ready _ _, rfl, rfl⟩, ⟨accepts_writable _, rfl⟩, rfl, by decide⟩

theorem witness_ReservedWordsFault :
    ((0x0F#8 : Byte).toNat / 16 = 0 ∧ 8 ≤ (0x80#8 : Byte).toNat / 16 ∧
      ((0x61#8 : Byte).toNat / 16 ≤ 6 ∧ (0x61#8 : Byte).toNat % 16 ≠ 0)) ∧ State.reset.fault = [] := by decide

theorem witness_HostWordsFaultDuringSession :
    (inProgram 0).fault = [] ∧ (inProgram 0).seq ≠ .idle ∧ wordReserved 0x10#8 = false ∧ wordReserved 0x11#8 = true := by
  decide

theorem witness_SkipAdvancesByCount :
    (Accepts (ready 1000 .read) ∧ (ready 1000 .read).addr = .val 1000 ∧ (ready 1000 .read).mode = .read ∧
        1000 + 24 ≤ 1024 ∧ 1000 ≤ 1024 ∧ 1024 < 1000 + 25) ∧
      (Accepts (ready 0 .write) ∧ 0 < 1 ∧ (ready 0 .write).mode ≠ .read) ∧ (Accepts State.reset ∧ State.reset.addr = .unknown) :=
  ⟨⟨accepts_ready _ _, rfl, rfl, by decide, by decide, by decide⟩, ⟨accepts_ready _ _, by decide, by decide⟩,
    accepts_reset, rfl⟩

theorem witness_PseudoOperationsAreTheirExpansion :
    (∃ n, Instr.skip 3 = .skip n) ∧ (∃ a, Instr.seek 1024 = .seek a ∧ a ≤ 1024) ∧ State.reset.fault = [] :=
  ⟨⟨3, rfl⟩, ⟨1024, rfl, by decide⟩, rfl⟩

theorem witness_SeekReachesAddress :
    (Accepts (ready 517 .read) ∧ (ready 517 .read).mode = .read ∧ 1024 ≤ 1024) ∧ Accepts State.reset :=
  ⟨⟨accepts_ready _ _, rfl, by decide⟩, accepts_reset⟩

theorem witness_CounterCountsAdvances :
    ([.modeRead, .readAdv, .readAdv] : List Instr).all isPrimitive = true ∧ Accepts (ready 0 .unconf) ∧
      (ready 0 .unconf).addr = .val 0 ∧ (issueAll [.modeRead, .readAdv, .readAdv] (ready 0 .unconf)).fault = [] :=
  ⟨rfl, accepts_ready _ _, rfl, by decide⟩

theorem witness_OtherCommandsDoNothing :
    Accepts State.reset ∧ chr 'x' ∉ [chr 'R', chr 'r', chr 'P', chr 'p', chr 'V', chr 'v', chr 'L', chr 'l'] :=
  ⟨accepts_reset, by decide⟩

theorem witness_DecodeOfEncodeIsIdentity :
    (Instr.writeAdv 0xF#4).wf = true ∧ encode (.writeAdv 0xF#4) = some (.word 0x7F#8) ∧
      (Instr.cmdNop []).wf = true ∧ encode (.cmdNop []) = some (.line []) := by decide

theorem witness_EncodeOfDecodeIsIdentity :
    SeqState.programS ≠ .readS ∧ SeqState.programS ≠ .listS ∧
      decodeItem .programS (.line []) = some (.programLine []) := by decide

/-- DecodeOffsetGivesSignedValue, DecodeFreqGivesFrequency, RenderOffsetText, HexCharGivesUppercaseDigit and
HexValueGivesValueOrSentinel share the hypothesis that FAULT is empty. -/
theorem witness_ValueFunctions : State.reset.fault = [] ∧ (9#4 : Nibble).toNat ≤ 9 := by decide

theorem witness_NormalizeCorrectsOnce : State.reset.fault = [] ∧ (-10000 : Int) ≤ -10000 ∧ (-10000 : Int) ≤ 19999 := by decide

theorem witness_FrequencyRanges :
    (-85 : Int) ≤ -85 ∧ (-85 : Int) ≤ 85 ∧
      exec (.decodeFreq ⟨0, 0, 0, 0, 0, 0, 0, 0, 0⟩ (-85)) State.reset =
        .next { State.reset with result := .freq (.freq (-1) 9915 0#4) } := ⟨by decide, by decide, rfl⟩

theorem witness_OffsetNeverChangesDisplayDigit :
    ∃ t, exec (.decodeFreq ⟨3, 5, 4, 3, 2, 7, 0, 0, 0⟩ (-79)) State.reset = .next t ∧
      t.result = .freq (.freq 7 2266 3#4) := ⟨_, rfl, by decide⟩

theorem witness_RenderFreqText : State.reset.fault = [] ∧ (0 : Int) ≤ 0 ∧ (-1 : Int) < 0 := by decide

theorem witness_LabelGivesThreeDigits : State.reset.fault = [] ∧ 0x3FF ≤ 0x3FF := by decide

theorem witness_LinesAreClassified : IsData (record 'A') ∧ ¬ IsData (text "hello") ∧ State.reset.fault = [] :=
  ⟨record_data, hello_notData.2, rfl⟩

theorem witness_ParseLineFollowsHexPolicy :
    (IsData (record 'A') ∧ Usable State.reset.params (record 'A')) ∧
      Usable (withPolicy .clamp4Bit State.reset).params badRecord ∧
      (IsData badRecord ∧ ¬ AllHex State.reset.params badRecord ∧ State.reset.params.hexPolicy = .rejectLine) ∧
      (¬ AllHex (withPolicy .fault State.reset).params badRecord ∧
        (withPolicy .fault State.reset).params.hexPolicy = .fault) ∧ State.reset.fault = [] :=
  ⟨⟨record_data, record_usable⟩, badRecord_usable, ⟨badRecord_data, badRecord_notHex _, rfl⟩,
    ⟨badRecord_notHex _, rfl⟩, rfl⟩

theorem witness_EncodeRecordBuildsLine :
    (ready 0x3C0 .read).fault = [] ∧ (ready 0x3C0 .read).addr = .val 0x3C0 ∧ 0x3C0 % 64 = 0 ∧ 0x3C0 ≤ 0x3C0 ∧
      (ready 0x3C0 .read).mode = .read := by decide

theorem witness_ProgramLineWritesDataLine :
    (writable 1024).fault = [] ∧ Memory.wf (writable 1024).mem = true ∧ (writable 1024).addr = .val 1024 ∧ 1024 ≤ 1024 ∧
      (writable 1024).mode = .write ∧ (writable 1024).wp = .deasserted ∧ Usable (writable 1024).params (record 'A') :=
  ⟨rfl, rfl, rfl, by decide, rfl, rfl, record_usable⟩

/-- A memory of zeros: every nibble of the record 64 times 'A' mismatches, so the last mismatch is nibble 63. -/
theorem witness_VerifyLineRecordsLastMismatch :
    (ready 960 .read).fault = [] ∧ (ready 960 .read).addr = .val 960 ∧ 960 + 64 ≤ 1024 ∧ (ready 960 .read).mode = .read ∧
      Usable (ready 960 .read).params (record 'A') ∧
      (ready 960 .read).mem.read (960 + 63) ≠ lineNibble (ready 960 .read).params (record 'A') 63 :=
  ⟨rfl, rfl, by decide, rfl, record_usable, by decide +kernel⟩

/-- And against the record 64 times '0' every nibble matches. -/
theorem witness_VerifyLineMatches :
    ∀ j < 64, (ready 0 .read).mem.read (0 + j) = lineNibble (ready 0 .read).params (record '0') j := by decide +kernel

theorem witness_VerifyLineFaultsPastEnd :
    (ready 1024 .read).fault = [] ∧ (ready 1024 .read).addr = .val 1024 ∧ 1024 ≤ 1024 ∧ 1024 < 1024 + 64 ∧
      (ready 1024 .read).mode = .read ∧ Usable (ready 1024 .read).params (record 'A') :=
  ⟨rfl, rfl, by decide, by decide, rfl, record_usable⟩

/-- From the last address the only nibble compared, nibble 0, mismatches for the record 64 times 'A'. -/
theorem witness_VerifyLineFaultsPastEnd_mismatch :
    (ready 1023 .read).addr = .val 1023 ∧ 1023 ≤ 1024 ∧ 1024 < 1023 + 64 ∧ 1023 + 0 < 1024 ∧
      (ready 1023 .read).mem.read (1023 + 0) ≠ lineNibble (ready 1023 .read).params (record 'A') 0 ∧
      ∀ k, 0 < k → 1023 + k < 1024 → (ready 1023 .read).mem.read (1023 + k) = lineNibble (ready 1023 .read).params (record 'A') k :=
  ⟨rfl, by decide, by decide, by decide, by decide +kernel, fun k h1 h2 => absurd h2 (by omega)⟩

/-- And for the record 64 times '0' it matches. -/
theorem witness_VerifyLineFaultsPastEnd_match :
    ∀ j, 1023 + j < 1024 → (ready 1023 .read).mem.read (1023 + j) = lineNibble (ready 1023 .read).params (record '0') j :=
  fun j h => by
    obtain rfl : j = 0 := by omega
    decide +kernel

theorem witness_OtherLinesChangeNothing :
    (∃ l, Instr.programLine l = .programLine []) ∧ (text "hello" ≠ [] ∧ ¬ IsData (text "hello")) ∧
      (IsData badRecord ∧ ¬ AllHex (inProgram 0).params badRecord ∧ (inProgram 0).params.hexPolicy = .rejectLine) ∧
      (inProgram 0).fault = [] :=
  ⟨⟨[], rfl⟩, hello_notData, ⟨badRecord_data, badRecord_notHex _, rfl⟩, rfl⟩

theorem witness_HexFaultPrecedesAccesses :
    IsData badRecord ∧ ¬ AllHex (withPolicy .fault State.reset).params badRecord ∧
      (withPolicy .fault State.reset).params.hexPolicy = .fault ∧ (withPolicy .fault State.reset).fault = [] :=
  ⟨badRecord_data, badRecord_notHex _, rfl, rfl⟩

/-- Two records that differ in the label and the filler. -/
theorem witness_LabelOfInputLineIsIgnored :
    IsData (record 'A') ∧ IsData (text "3XYzz" ++ List.replicate 64 (chr 'A')) ∧
      ∀ j < 64, (record 'A').getD (5 + j) 0#8 = (text "3XYzz" ++ List.replicate 64 (chr 'A')).getD (5 + j) 0#8 :=
  ⟨record_data, ⟨by decide, chr '3', rfl, by decide⟩, by decide +kernel⟩

theorem witness_SequencerAccessesFault :
    (State.reset.fault = [] ∧ Usable State.reset.params (record 'A') ∧ State.reset.addr = .unknown) ∧
      ((ready 1023 .read).addr = .val 1023 ∧ 1023 < 1024 ∧ (ready 1023 .read).mode ≠ .write) ∧
      ((ready 1023 .write).mode = .write ∧ (ready 1023 .write).wp = .asserted) ∧
      ((ready 0 .write).addr = .val 0 ∧ (ready 0 .write).mode ≠ .read) ∧
      ((ready 961 .read).addr = .val 961 ∧ (ready 961 .read).mode = .read ∧ 961 ≤ 1024 ∧ 1024 < 961 + 64) :=
  ⟨⟨rfl, record_usable, rfl⟩, ⟨rfl, by decide, by decide⟩, ⟨rfl, rfl⟩, ⟨rfl, by decide⟩, rfl, rfl, by decide,
    by decide⟩

theorem witness_OperandsOutsideTheirDomain :
    State.reset.fault = [] ∧ 0x3FF < 0x400 ∧ ¬ IsData (text "hello") ∧
      ((ready 960 .read).fault = [] ∧ 0x3FF ≤ 0x3FF ∧ (ready 960 .read).addr = .val 960 ∧ 960 + 64 ≤ 1024 ∧
        (ready 960 .read).mode = .read) :=
  ⟨rfl, by decide, hello_notData.2, rfl, by decide, rfl, by decide, rfl⟩

theorem witness_DisplayTexts : 1 ≤ 32 ∧ 32 ≤ 32 ∧ 0x3FF ≤ 0x3FF := by decide

/-- ReadSessionDumpsMemory and ListSessionDecodesMemoryMap share the hypothesis that the block accepts a command. -/
theorem witness_Commands : Accepts State.reset := accepts_reset

theorem witness_ProgramSessionRuns :
    Accepts State.reset ∧ (inProgram 64).fault = [] ∧ (inProgram 64).seq = .programS ∧
      ({ inProgram 64 with input := [.line (text "hello")] } : State).input = .line (text "hello") :: [] ∧
      text "hello" ≠ [] ∧ ({ inProgram 64 with input := [.line []] } : State).input = .line [] :: [] :=
  ⟨accepts_reset, rfl, rfl, rfl, hello_notData.1, rfl⟩

theorem witness_VerifySessionRuns :
    Accepts State.reset ∧ (inVerify 64).fault = [] ∧ (inVerify 64).seq = .verifyS ∧
      ({ inVerify 64 with input := [.line (text "hello")] } : State).input = .line (text "hello") :: [] ∧
      text "hello" ≠ [] ∧ ({ inVerify 64 with input := [.line []] } : State).input = .line [] :: [] :=
  ⟨accepts_reset, rfl, rfl, rfl, hello_notData.1, rfl⟩

theorem witness_CommandsNotAcceptedDuringSession :
    (∃ c, Instr.cmdRead (text "R") = .cmdRead c) ∧ (inProgram 0).fault = [] ∧ (inProgram 0).seq ≠ .idle :=
  ⟨⟨_, rfl⟩, rfl, by decide⟩

theorem witness_SessionsIgnorePriorCounterAndMode :
    (∃ c, Instr.cmdProgram (text "P") = .cmdProgram c) ∧ Accepts (ready 1024 .write) := ⟨⟨_, rfl⟩, accepts_ready _ _⟩

theorem witness_TransportIgnoresOffsetTable : bypassesInterpreter (.cmdRead (text "R")) = true := rfl

theorem witness_DumpProgramVerifyRoundTrip :
    Accepts { State.reset with mem := imageE1 } ∧
      (Accepts State.reset ∧ Memory.wf State.reset.mem = true ∧ decodeCommand (text "p") = .cmdProgram (text "p")) ∧
      (∀ a < 1024, Memory.read imageE1 a = Memory.read imageE1 a) ∧ decodeCommand (text "v") = .cmdVerify (text "v") :=
  ⟨⟨rfl, rfl⟩, ⟨accepts_reset, rfl, by decide⟩, fun _ _ => rfl, by decide⟩

theorem witness_StepRunsDecodedItem :
    (State.reset.fault = [] ∧ State.reset.seq = .idle ∧
        ({ State.reset with input := [.word 0x10#8] } : State).input = .word 0x10#8 :: [] ∧
        decodeItem .idle (.word 0x10#8) = some .reset) ∧
      (({ State.reset with seq := .readS } : State).fault = [] ∧ ({ State.reset with seq := .readS } : State).seq = .readS) := by
  decide

theorem witness_StepWaitsForHost : State.reset.fault = [] ∧ State.reset.input = [] := by decide

theorem witness_FaultsAreSticky : stopped.fault ≠ [] := by decide

theorem witness_FaultEntryIsPrecise :
    isSingle .readAdv = true ∧ State.reset.fault = [] ∧ exec .readAdv State.reset = .next stopped ∧ stopped.fault ≠ [] :=
  ⟨rfl, rfl, rfl, by decide⟩

theorem witness_PowerOnMeetsInvariant :
    Memory.wf imageE1 = true ∧ ({ stopped with mem := imageE1 } : State).mem.wf = true := by decide

/-- A Program session at the end of the memory meets the invariant. -/
theorem inv_inProgram : (inProgram 1024).Inv := by unfold State.Inv; decide

theorem witness_ExecKeepsInvariant : (inProgram 1024).Inv ∧ ∃ t, exec (.programLine []) (inProgram 1024) = .next t :=
  ⟨inv_inProgram, _, rfl⟩

theorem witness_StepKeepsInvariant : (inProgram 1024).Inv ∧ ∃ t, step (inProgram 1024) = .next t := ⟨inv_inProgram, _, rfl⟩

theorem witness_MemoryChangesOnlyWhenUnprotected :
    ∃ s t, step s = .next t ∧ t.mem ≠ s.mem :=
  ⟨{ writable 1023 with input := [.word 0x71#8] },
    { writable 1023 with addr := .val 1024, mem := [(1023, 0x01#8)] }, rfl, by decide⟩

theorem witness_StepOnlyAppendsOutput :
    (∃ t, step (inVerify 0) = .next t) ∧ (inVerify 0).addr ≠ .unknown := ⟨⟨_, rfl⟩, by decide⟩

end Sys2Proof.Tests
end

section
/-!
PROOFS. What every step keeps (10_state.md): the invariant of the block (R21, R27 to R29, R195, R223), the write-protect
rule (R25, R106, R195), and what only grows (R20, R31, R261); and that a session takes no command (R27, R220). Each is
proved for an access, for an operation (`exec_next`), for what a session does after it (`resume_cases`), and so for a step
(`step_cases`).
-/

namespace Sys2Proof.Machine

/-! ### What a session does after an operation -/

/-- What follows an operation in a session: nothing, or the epilogue of Program or Verify (R194, R196). -/
theorem resume_cases (q : SeqState) (t : State) :
    resume q t = t ∨ resume q t = programEnd t ∨ resume q t = verifyEnd t := by
  by_cases hend : t.result = .kind .endOfInput
  · rw [resume.eq_def, if_pos hend]
    cases q with
    | idle | readS | listS => exact .inl rfl
    | programS => exact .inr (.inl rfl)
    | verifyS => exact .inr (.inr rfl)
  · exact .inl (resume_waits hend)

@[simp] theorem resume_mem (q : SeqState) (t : State) : (resume q t).mem = t.mem := by
  obtain e | e | e := resume_cases q t <;> rw [e] <;> rfl

/-! ### The invariant -/

@[simp] theorem Counter.known_iff (a : Counter) : a.known = true ↔ a ≠ .unknown := by cases a <;> simp [Counter.known]

/-- The part of the invariant about the offset table: five entries, each UNWRITTEN or in −85..+85 (R28). -/
def tableOk (o : List (Option Int)) : Prop := o.length = Config.nOfs ∧ o.all ofsEntryOk = true

/-- The invariant in the parts that operations touch: what accesses move, the offset table, FAULT, and SEQ. -/
theorem State.inv_iff (s : State) :
    s.Inv ↔ s.sound ∧ tableOk s.ofs ∧ s.fault.length ≤ 1 ∧ (s.fault = [] → seqOk s = true) := by
  simp only [State.Inv, State.sound, tableOk]
  tauto

theorem State.inv_of_running {s : State} (hsound : s.sound) (htable : tableOk s.ofs) (hseq : seqOk s = true)
    (hf : s.fault = []) : s.Inv :=
  s.inv_iff.2 ⟨hsound, htable, by simp [hf], fun _ => hseq⟩

theorem seqOk_idle {s : State} (h : s.seq = .idle) : seqOk s = true := by simp [seqOk, h]

/-- An entry decodes to −85..+85: at most 7 tens and 15 units (R130). -/
theorem decodeOffset_range (lo hi : Nibble) : -85 ≤ decodeOffset lo hi ∧ decodeOffset lo hi ≤ 85 := by
  have ht : (offsetTens hi).toNat ≤ 7 := by
    rw [offsetTens, BitVec.toNat_and]
    exact Nat.and_le_right
  have hl : lo.toNat < 16 := lo.isLt
  simp only [decodeOffset]
  split <;> omega

theorem tableOk_filledTable (p : Params) (m : Memory) : tableOk (filledTable p m) := by
  refine ⟨by simp [filledTable], List.all_eq_true.2 fun o ho => ?_⟩
  obtain ⟨k, -, rfl⟩ := List.mem_map.1 ho
  have h : -85 ≤ entryOffset p m k ∧ entryOffset p m k ≤ 85 := decodeOffset_range _ _
  simpa [ofsEntryOk] using h

theorem Access.seqOk {s t : State} (h : Access s t) (hs : seqOk s = true) : seqOk t = true := by
  obtain ⟨hmode, hwp, hseq, -⟩ := h.fields
  have hk := h.known
  cases hq : s.seq with
  | idle => exact seqOk_idle (hseq.trans hq)
  | programS | verifyS => simp_all [Machine.seqOk]
  | readS | listS => simp [Machine.seqOk, hq] at hs

theorem Access.inv {s t : State} (h : Access s t) (hs : s.Inv) : t.Inv := by
  obtain ⟨-, -, -, hofs, hfault, -⟩ := h.fields
  rw [State.inv_iff, hofs, hfault]
  obtain ⟨hsound, htable, hlen, hseq⟩ := s.inv_iff.1 hs
  exact ⟨h.sound hsound, htable, hlen, fun hf => h.seqOk (hseq hf)⟩

/-- The first fault leaves one record, and nothing is asked of SEQ after it (R245, R246). -/
theorem raiseFault_inv {s : State} (c : FaultCode) (op : FaultOp) (hf : s.fault = []) (hs : s.Inv) :
    (raiseFault c op s).Inv := by
  obtain ⟨hsound, htable, -⟩ := s.inv_iff.1 hs
  exact (State.inv_iff _).2 ⟨hsound, htable, by simp [hf], by simp⟩

theorem Plain.inv {s t : State} (h : Plain s t) (hf : s.fault = []) (hs : s.Inv) : t.Inv := by
  obtain ⟨u, v, ha, rfl⟩ | ⟨c, op, u, ha, rfl⟩ := h
  · exact ha.inv hs
  · obtain ⟨-, -, -, -, hfault, -⟩ := ha.fields
    exact raiseFault_inv c op (hfault.trans hf) (ha.inv hs)

theorem IdleEffect.inv {s t : State} (h : IdleEffect s t) (hf : s.fault = []) (hq : s.seq = .idle) (hs : s.Inv) :
    t.Inv := by
  obtain ⟨⟨hmem, haddr, hlast⟩, htable, -⟩ := s.inv_iff.1 hs
  cases h with
  | seek t hp _ =>
    have hreset : (opReset s).Inv := State.inv_of_running ⟨hmem, rfl, hlast⟩ htable (seqOk_idle hq) hf
    exact hp.inv hf hreset
  | modeRead | modeWrite | wpAssert | wpDeassert =>
    exact State.inv_of_running ⟨hmem, haddr, hlast⟩ htable (seqOk_idle hq) hf
  | read => exact State.inv_of_running ⟨hmem, rfl, hlast⟩ htable rfl hf
  | program => exact State.inv_of_running ⟨hmem, rfl, hlast⟩ htable rfl hf
  | verify => exact State.inv_of_running ⟨hmem, rfl, rfl⟩ htable rfl hf
  | list => exact State.inv_of_running ⟨hmem, rfl, hlast⟩ (tableOk_filledTable _ _) rfl hf

theorem exec_inv {i : Instr} {s t : State} (h : exec i s = .next t) (hs : s.Inv) : t.Inv := by
  obtain ⟨hf, hp | ⟨hq, hi⟩⟩ := exec_next h
  · exact hp.inv hf hs
  · exact hi.inv hf hq hs

/-- Both epilogues leave the block idle and move nothing else that the invariant speaks of. -/
theorem resume_inv (q : SeqState) {t : State} (ht : t.Inv) : (resume q t).Inv := by
  obtain ⟨hsound, htable, hlen, -⟩ := t.inv_iff.1 ht
  obtain e | e | e := resume_cases q t
  · rwa [e]
  · rw [e]
    exact (State.inv_iff _).2 ⟨hsound, htable, hlen, fun _ => rfl⟩
  · rw [e]
    exact (State.inv_iff _).2 ⟨hsound, htable, hlen, fun _ => rfl⟩

/-- Settles O55: an operation is accesses, a fault, or an effect of the idle block, and each keeps the invariant. -/
theorem execKeepsInvariant : Obligations.ExecKeepsInvariant := fun _ _ _ hs h => exec_inv h hs

/-- Settles O56: a step waits, or runs an instruction and then what its session does after it. -/
theorem stepKeepsInvariant : Obligations.StepKeepsInvariant := by
  intro s t hs h
  obtain ⟨-, ⟨-, rfl⟩ | ⟨it, rest, i, u, -, -, hu, rfl⟩⟩ := step_cases h
  · exact hs
  · have hrest : ({ s with input := rest } : State).Inv := hs
    exact resume_inv s.seq (exec_inv hu hrest)

/-! ### Operation words of the host -/

/-- The operation a word stands for, by its code (R71, R72). -/
theorem decodeWord_cases (w : Byte) :
    (wordReserved w = true ∧ decodeWord w = .opwReserved w) ∨
    (wordReserved w = false ∧
      ((w = 0x10#8 ∧ decodeWord w = .reset) ∨ (w = 0x20#8 ∧ decodeWord w = .modeRead) ∨
        (w = 0x30#8 ∧ decodeWord w = .modeWrite) ∨ (w = 0x40#8 ∧ decodeWord w = .wpAssert) ∨
        (w = 0x50#8 ∧ decodeWord w = .wpDeassert) ∨ (w = readAdvWord ∧ decodeWord w = .readAdv) ∨
        ∃ n, w = writeAdvWord n ∧ decodeWord w = .writeAdv n)) := by
  revert w
  decide +kernel

/-- A word that is not reserved runs as a host word: accepted only while no session owns the driver (R243). -/
theorem exec_decodeWord_of_not_reserved {w : Byte} (h : wordReserved w = false) :
    ∃ f, ∀ s, exec (decodeWord w) s = hostWord w f s := by
  obtain ⟨hr, -⟩ | ⟨-, hop⟩ := decodeWord_cases w
  · simp [h] at hr
  · obtain ⟨rfl, e⟩ | ⟨rfl, e⟩ | ⟨rfl, e⟩ | ⟨rfl, e⟩ | ⟨rfl, e⟩ | ⟨rfl, e⟩ | ⟨n, rfl, e⟩ := hop <;> rw [e]
    · exact ⟨_, exec_reset⟩
    · exact ⟨_, exec_modeRead⟩
    · exact ⟨_, exec_modeWrite⟩
    · exact ⟨_, exec_wpAssert⟩
    · exact ⟨_, exec_wpDeassert⟩
    · exact ⟨_, exec_readAdv⟩
    · exact ⟨_, fun s => exec_writeAdv s n⟩

/-- An operation word during a session only takes its fault: F_RESERVED, else F_BUSY (R243, R244). -/
theorem exec_decodeWord_session (w : Byte) {s : State} (hf : s.fault = []) (hq : s.seq ≠ .idle) :
    exec (decodeWord w) s = .next (raiseFault (if wordReserved w then .reserved else .busy) (.word w) s) := by
  cases hr : wordReserved w with
  | true =>
    obtain ⟨-, e⟩ | ⟨hn, -⟩ := decodeWord_cases w
    · rw [e, exec_opwReserved, whenRunning_ok hf]
      rfl
    · simp [hr] at hn
  | false =>
    obtain ⟨f, e⟩ := exec_decodeWord_of_not_reserved hr
    rw [e, hostWord_busy w f hf hq]
    rfl

/-! ### What can change the memory -/

theorem Plain.mem {s t : State} (h : Plain s t) (hne : t.mem ≠ s.mem) :
    s.wp = .deasserted ∧ s.mode = .write ∧ s.addr ≠ .unknown := by
  obtain ⟨u, v, ha, rfl⟩ | ⟨c, op, u, ha, rfl⟩ := h
  · exact ha.mem hne
  · exact ha.mem hne

theorem IdleEffect.mem {s t : State} (h : IdleEffect s t) : t.mem = s.mem := by
  cases h with
  | seek _ _ hm => exact hm
  | modeRead | modeWrite | wpAssert | wpDeassert | read | program | verify | list => rfl

/-- VERIFY_LINE compares and never writes (R188). -/
theorem exec_verifyLine_mem {l : Line} {s t : State} (h : exec (.verifyLine l) s = .next t) : t.mem = s.mem := by
  rw [exec_verifyLine] at h
  obtain ⟨-, e⟩ := sequencerStep_next h
  exact finish_mem e ((opLine_verify_mem l s).next fun _ _ hu => hu)

/-- Of the items a block takes during a session, only a line of a Program session writes: a word faults, and a line of a
Verify session is compared (R27, R188, R243). -/
theorem exec_session_mem {it : HostItem} {i : Instr} {s t : State} (hd : decodeItem s.seq it = some i)
    (h : exec i s = .next t) (hne : t.mem ≠ s.mem) : s.seq = .idle ∨ s.seq = .programS := by
  obtain ⟨hf, -⟩ := exec_next h
  by_contra hq
  obtain ⟨hidle, hprogram⟩ := not_or.1 hq
  cases it with
  | word w =>
    cases hd
    rw [exec_decodeWord_session w hf hidle] at h
    cases h
    exact hne rfl
  | line l =>
    cases hs : s.seq with
    | idle => exact hidle hs
    | programS => exact hprogram hs
    | verifyS =>
      rw [hs] at hd
      cases hd
      exact hne (exec_verifyLine_mem h)
    | readS | listS => rw [hs] at hd; cases hd

/-- Settles O57: only an access writes, and it asks for WRITE mode, write protect de-asserted and a known counter. -/
theorem memoryChangesOnlyWhenUnprotected : Obligations.MemoryChangesOnlyWhenUnprotected := by
  intro s t h hne
  obtain ⟨-, ⟨-, rfl⟩ | ⟨it, rest, i, u, -, hd, hu, rfl⟩⟩ := step_cases h
  · exact absurd rfl hne
  · rw [resume_mem] at hne
    have hseq : s.seq = .idle ∨ s.seq = .programS := exec_session_mem (s := { s with input := rest }) hd hu hne
    obtain ⟨-, hp | ⟨-, hi⟩⟩ := exec_next hu
    · obtain ⟨hw, hm, ha⟩ := hp.mem hne
      exact ⟨hw, hm, ha, hseq⟩
    · exact absurd hi.mem hne

/-! ### What only grows -/

/-- `t` comes after `s`: OUT was only appended to, the parameters stayed, a known counter is known, and no draw was
forgotten (R20, R31, R261). -/
structure Later (s t : State) : Prop where
  out : s.out <+: t.out
  params : t.params = s.params
  known : s.addr ≠ .unknown → t.addr ≠ .unknown
  draws : s.draws ≤ t.draws

theorem Later.refl (s : State) : Later s s := ⟨List.prefix_rfl, rfl, id, Nat.le_refl _⟩

theorem Later.trans {s t u : State} (h : Later s t) (g : Later t u) : Later s u :=
  ⟨h.out.trans g.out, g.params.trans h.params, g.known ∘ h.known, h.draws.trans g.draws⟩

theorem Access.later {s t : State} (h : Access s t) : Later s t := by
  obtain ⟨-, -, -, -, -, hout, -, -, hdraws, hparams⟩ := h.fields
  exact ⟨hout ▸ List.prefix_rfl, hparams, h.known, hdraws.ge⟩

theorem Plain.later {s t : State} (h : Plain s t) : Later s t := by
  obtain ⟨u, v, ha, rfl⟩ | ⟨c, op, u, ha, rfl⟩ := h
  · exact ha.later.trans ⟨List.prefix_rfl, rfl, id, Nat.le_refl _⟩
  · exact ha.later.trans ⟨List.prefix_rfl, rfl, id, Nat.le_refl _⟩

theorem opReset_later (s : State) : Later s (opReset s) := ⟨List.prefix_rfl, rfl, fun _ => by simp, Nat.le_refl _⟩

theorem IdleEffect.later {s t : State} (h : IdleEffect s t) : Later s t := by
  cases h with
  | seek t hp _ => exact (opReset_later s).trans hp.later
  | modeRead | modeWrite | wpAssert | wpDeassert => exact ⟨List.prefix_rfl, rfl, id, Nat.le_refl _⟩
  | program | verify => exact ⟨List.prefix_rfl, rfl, fun _ => Counter.noConfusion, Nat.le_refl _⟩
  | read => exact ⟨List.prefix_append _ _, rfl, fun _ => Counter.noConfusion, Nat.le_refl _⟩
  | list => exact ⟨List.prefix_append _ _, rfl, fun _ => Counter.noConfusion, Nat.le_add_right _ _⟩

theorem exec_later {i : Instr} {s t : State} (h : exec i s = .next t) : Later s t := by
  obtain ⟨-, hp | ⟨-, hi⟩⟩ := exec_next h
  · exact hp.later
  · exact hi.later

theorem resume_later (q : SeqState) (t : State) : Later t (resume q t) := by
  obtain e | e | e := resume_cases q t
  · rw [e]
    exact .refl t
  · rw [e]
    exact ⟨List.prefix_rfl, rfl, id, Nat.le_refl _⟩
  · rw [e]
    exact ⟨List.prefix_append _ _, rfl, id, Nat.le_refl _⟩

theorem step_later {s t : State} (h : step s = .next t) : Later s t := by
  obtain ⟨-, ⟨-, rfl⟩ | ⟨it, rest, i, u, -, -, hu, rfl⟩⟩ := step_cases h
  · exact .refl _
  · have htook : Later s { s with input := rest } := ⟨List.prefix_rfl, rfl, id, Nat.le_refl _⟩
    exact (htook.trans (exec_later hu)).trans (resume_later s.seq u)

/-- Settles O58: operations and epilogues only go on from what OUT, the counter and the draws were. -/
theorem stepOnlyAppendsOutput : Obligations.StepOnlyAppendsOutput := by
  intro s t h
  obtain ⟨hout, hparams, hknown, hdraws⟩ := step_later h
  exact ⟨hout, hparams, hknown, hdraws⟩

/-! ### Commands during a session -/

/-- Settles O44: every command is a `hostCommand`, which a block in a session refuses. -/
theorem commandsNotAcceptedDuringSession : Obligations.CommandsNotAcceptedDuringSession := by
  rintro c s i (rfl | rfl | rfl | rfl | rfl) hf hq
  · rw [exec_cmdRead, hostCommand_session _ hf hq]
  · rw [exec_cmdProgram, hostCommand_session _ hf hq]
  · rw [exec_cmdVerify, hostCommand_session _ hf hq]
  · rw [exec_cmdList, hostCommand_session _ hf hq]
  · rw [exec_cmdNop, hostCommand_session _ hf hq]

end Sys2Proof.Machine
end

section
/-!
PROOFS. What survives a power cycle (20_memory.md R67).
-/

namespace Sys2Proof.Machine

/-- Settles O53: a power cycle is a power-on whose launch image is the memory found, with the parameters and the count of
draws found; so each element is read off the two definitions. -/
theorem powerCycleKeepsMemory : Obligations.PowerCycleKeepsMemory :=
  fun _ => ⟨rfl, rfl, rfl, rfl, rfl, rfl, rfl, rfl, rfl, rfl, rfl⟩

end Sys2Proof.Machine
end

section
/-!
PROOFS. The encodings of the two interfaces (30_encoding.md R71 to R74, R77, R88): what a word and a command line decode
to, said once for each, and from that the two round trips.
-/

namespace Sys2Proof.Machine

open Sys2Proof.Spec

/-! ### Operation words (R71, R72) -/

theorem decodeWord_writeAdvWord (n : Nibble) : decodeWord (writeAdvWord n) = .writeAdv n := by
  revert n
  decide

/-- Settles O13: each code is compared with the rows of R71; WRITE_ADV's row keeps the low nibble as the operand. -/
theorem operationCodesDecode : Obligations.OperationCodesDecode :=
  ⟨rfl, rfl, rfl, rfl, rfl, rfl, decodeWord_writeAdvWord⟩

theorem wordReserved_iff (w : Byte) :
    wordReserved w = true ↔ w.toNat / 16 = 0 ∨ 8 ≤ w.toNat / 16 ∨ (w.toNat / 16 ≤ 6 ∧ w.toNat % 16 ≠ 0) := by
  simp [wordReserved, or_assoc]

theorem decodeWord_of_reserved {w : Byte} (h : wordReserved w = true) : decodeWord w = .opwReserved w := by
  obtain ⟨-, e⟩ | ⟨hn, -⟩ := decodeWord_cases w
  · exact e
  · simp [h] at hn

theorem decodeWord_wf (w : Byte) : (decodeWord w).wf = true := by
  obtain ⟨hr, e⟩ | ⟨-, hop⟩ := decodeWord_cases w
  · rw [e]
    exact hr
  · obtain ⟨-, e⟩ | ⟨-, e⟩ | ⟨-, e⟩ | ⟨-, e⟩ | ⟨-, e⟩ | ⟨-, e⟩ | ⟨n, -, e⟩ := hop <;> rw [e] <;> rfl

theorem encode_decodeWord (w : Byte) : encode (decodeWord w) = some (.word w) := by
  obtain ⟨-, e⟩ | ⟨-, hop⟩ := decodeWord_cases w
  · rw [e]
    rfl
  · obtain ⟨rfl, e⟩ | ⟨rfl, e⟩ | ⟨rfl, e⟩ | ⟨rfl, e⟩ | ⟨rfl, e⟩ | ⟨rfl, e⟩ | ⟨n, rfl, e⟩ := hop <;> rw [e] <;> rfl

/-- Settles O7: the three kinds of word of R72 are those `wordReserved` names, and OPW_RESERVED only takes its fault. -/
theorem reservedWordsFault : Obligations.ReservedWordsFault := by
  intro w s hw hf
  refine ⟨decodeWord_of_reserved ((wordReserved_iff w).2 hw), ?_⟩
  rw [exec_opwReserved, whenRunning_ok hf]
  rfl

/-! ### Command lines (R73, R74) -/

/-- The sequence of R221's comparisons, in the words of the well-formedness of the rows. -/
theorem decodeCommand_eq (l : Line) :
    decodeCommand l =
      if commandStarts 0x52#8 l then .cmdRead l
      else if commandStarts 0x50#8 l then .cmdProgram l
      else if commandStarts 0x56#8 l then .cmdVerify l
      else if commandStarts 0x4C#8 l then .cmdList l
      else .cmdNop l := by
  cases l <;> simp [decodeCommand, commandStarts]

/-- The masked first character is one code, so a line starts at most one command. -/
theorem commandStarts_unique {c d : Byte} {l : Line} (hc : commandStarts c l = true) (hd : commandStarts d l = true) :
    c = d := by
  cases l with
  | nil => cases hc
  | cons x l =>
    simp only [commandStarts, decide_eq_true_eq] at hc hd
    exact hc.symm.trans hd

theorem commandStarts_other {c d : Byte} {l : Line} (hc : commandStarts c l = true) (hne : c ≠ d) :
    commandStarts d l ≠ true := fun hd => hne (commandStarts_unique hc hd)

theorem decodeCommand_read {l : Line} (h : commandStarts 0x52#8 l = true) : decodeCommand l = .cmdRead l := by
  rw [decodeCommand_eq, if_pos h]

theorem decodeCommand_program {l : Line} (h : commandStarts 0x50#8 l = true) : decodeCommand l = .cmdProgram l := by
  rw [decodeCommand_eq, if_neg (commandStarts_other h (by decide)), if_pos h]

theorem decodeCommand_verify {l : Line} (h : commandStarts 0x56#8 l = true) : decodeCommand l = .cmdVerify l := by
  rw [decodeCommand_eq, if_neg (commandStarts_other h (by decide)), if_neg (commandStarts_other h (by decide)), if_pos h]

theorem decodeCommand_list {l : Line} (h : commandStarts 0x4C#8 l = true) : decodeCommand l = .cmdList l := by
  rw [decodeCommand_eq, if_neg (commandStarts_other h (by decide)), if_neg (commandStarts_other h (by decide)),
    if_neg (commandStarts_other h (by decide)), if_pos h]

theorem decodeCommand_nop {l : Line} (h : (Instr.cmdNop l).wf = true) : decodeCommand l = .cmdNop l := by
  rw [decodeCommand_eq]
  simp_all [Instr.wf]

theorem decodeCommand_wf (l : Line) : (decodeCommand l).wf = true := by
  rw [decodeCommand_eq]
  split_ifs with hread hprogram hverify hlist
  · exact hread
  · exact hprogram
  · exact hverify
  · exact hlist
  · simp [Instr.wf, hread, hprogram, hverify, hlist]

theorem encode_decodeCommand (l : Line) : encode (decodeCommand l) = some (.line l) := by
  rw [decodeCommand_eq]
  split_ifs <;> rfl

/-- Settles O14: the mask 0xDF takes either case of a letter to the code of its command. -/
theorem commandsSelectByFirstCharacter : Obligations.CommandsSelectByFirstCharacter :=
  ⟨fun _ => ⟨decodeCommand_read rfl, decodeCommand_read rfl⟩,
    fun _ => ⟨decodeCommand_program rfl, decodeCommand_program rfl⟩,
    fun _ => ⟨decodeCommand_verify rfl, decodeCommand_verify rfl⟩,
    fun _ => ⟨decodeCommand_list rfl, decodeCommand_list rfl⟩⟩

/-! ### Items -/

/-- Settles O15: an item is an operation word, which is heard in every SEQ, a command line, which its first character
selects, or a line of a session, which is its own operand. -/
theorem decodeOfEncodeIsIdentity : Obligations.DecodeOfEncodeIsIdentity := by
  intro i it hwf he
  cases i with
  | reset | modeRead | modeWrite | wpAssert | wpDeassert | readAdv =>
    cases he
    rfl
  | writeAdv n =>
    cases he
    exact congrArg some (decodeWord_writeAdvWord n)
  | opwReserved w =>
    cases he
    exact congrArg some (decodeWord_of_reserved hwf)
  | cmdRead c =>
    cases he
    exact congrArg some (decodeCommand_read hwf)
  | cmdProgram c =>
    cases he
    exact congrArg some (decodeCommand_program hwf)
  | cmdVerify c =>
    cases he
    exact congrArg some (decodeCommand_verify hwf)
  | cmdList c =>
    cases he
    exact congrArg some (decodeCommand_list hwf)
  | cmdNop c =>
    cases he
    exact congrArg some (decodeCommand_nop hwf)
  | programLine l | verifyLine l =>
    cases he
    rfl
  | decodeOffset | decodeFreq | normalize | renderOffset | renderFreq | hexChar | hexValue | encodeRecord | label
  | qualifyLine | classify | parseLine | skip | seek => cases he

/-- Settles O16: words decode in every SEQ; lines wherever one is read, at IDLE as a command and in a session as the operand
of its line function. -/
theorem encodeOfDecodeIsIdentity : Obligations.EncodeOfDecodeIsIdentity := by
  refine ⟨fun q w => ⟨decodeWord w, rfl⟩, fun q l hread hlist => ?_, fun q it i hd => ?_⟩
  · cases q with
    | idle | programS | verifyS => exact ⟨_, rfl⟩
    | readS => exact absurd rfl hread
    | listS => exact absurd rfl hlist
  · cases it with
    | word w =>
      cases hd
      exact ⟨decodeWord_wf w, encode_decodeWord w⟩
    | line l =>
      cases q with
      | idle =>
        cases hd
        exact ⟨decodeCommand_wf l, encode_decodeCommand l⟩
      | programS | verifyS =>
        cases hd
        exact ⟨rfl, rfl⟩
      | readS | listS => cases hd

/-! ### The step of an item -/

/-- An item that nothing reads in the current SEQ is refused by name (notes/assumptions/13.md). -/
theorem step_unread {s : State} {it : HostItem} {rest : List HostItem} (hf : s.fault = []) (hi : s.input = it :: rest)
    (hd : decodeItem s.seq it = none) : step s = .refused .lineNotAwaited := by
  rw [step, whenRunning_ok hf, hi]
  simp only [hd]

/-- Settles O48: at IDLE nothing follows the operation of an item, and in a Read or List session no line is read. -/
theorem stepRunsDecodedItem : Obligations.StepRunsDecodedItem := by
  refine ⟨fun s it rest i hf hi hd => step_item hf hi hd, fun s it rest i hf hq hi hd => ?_, fun s l rest hf hq hi => ?_⟩
  · have hstep : step s = resumeOutcome s.seq (exec i (took s rest)) := step_item hf hi (hq ▸ hd)
    rw [hstep, hq, resumeOutcome_idle]
  · refine step_unread hf hi ?_
    obtain hq | hq := hq <;> rw [hq] <;> rfl

end Sys2Proof.Machine
end

section
/-!
PROOFS. The pseudo-operations SKIP and SEEK are the words they expand to (40_driver.md R107, R108, 30_encoding.md R87).
Two facts carry it: READ_ADV does not read the nibble that the READ_ADV before it returned, and a block that has taken a
fault takes no word after it.
-/

namespace Sys2Proof.Machine

open Sys2Proof.Spec

/-- READ_ADV faults where it stands or moves ADDR, whatever the operation before it returned. -/
theorem opReadAdv_returning (s : State) :
    (∃ c, ∀ v, opReadAdv (returning v s) = .raised (raiseFault c (.word readAdvWord) s)) ∨
    ∃ x a, ∀ v, opReadAdv (returning v s) = .done x (returning v { s with addr := .val a }) := by
  cases ha : s.addr with
  | unknown => exact .inl ⟨.addrUnknown, fun v => opReadAdv_unknown (s := returning v s) ha⟩
  | val a =>
    by_cases hm : s.mode = .read
    · by_cases h : a < 1024
      · exact .inr ⟨s.mem.read a, a + 1, fun v => opReadAdv_ok (s := returning v s) ha hm h⟩
      · exact .inl ⟨.pastEnd, fun v => opReadAdv_pastEnd (s := returning v s) ha hm (by omega)⟩
    · exact .inl ⟨.mode, fun v => opReadAdv_mode (s := returning v s) ha hm⟩

theorem opSkip_succ_of_raised (n : Nat) {s t : State} (h : opReadAdv s = .raised t) : opSkip (n + 1) s = .raised t := by
  rw [opSkip, readMany, h, Run.next_raised, Run.next_raised]

theorem opSkip_succ_of_done (n : Nat) {s t : State} {x : Nibble} (h : opReadAdv s = .done x t) :
    opSkip (n + 1) s = opSkip n t := by
  rw [opSkip, readMany, h, opSkip, Run.next_done]
  cases readMany n t <;> rfl

theorem issueAll_cons {i : Instr} {s t : State} (is : List Instr) (h : exec i s = .next t) :
    issueAll (i :: is) s = issueAll is t := by
  rw [issueAll, h]

/-- A faulted block takes no operation (R246). -/
theorem issueAll_halted {s : State} (is : List Instr) (hf : s.fault ≠ []) : issueAll is s = s := by
  cases is with
  | nil => rfl
  | cons i is =>
    rw [issueAll]
    cases he : exec i s with
    | next t => exact absurd (exec_next he).1 hf
    | fault r => rfl
    | refused r => rfl

/-- During a session the first of several words takes F_BUSY, and no other is taken (R243). -/
theorem issueAll_session {w : Byte} {s : State} (is : List Instr) (hw : wordReserved w = false) (hf : s.fault = [])
    (hq : s.seq ≠ .idle) : issueAll (decodeWord w :: is) s = raiseFault .busy (.word w) s := by
  have hbusy : exec (decodeWord w) s = .next (raiseFault .busy (.word w) s) := by
    rw [exec_decodeWord_session w hf hq, hw]
    rfl
  rw [issueAll_cons is hbusy, issueAll_halted is (by simp)]

/-- The reads of a SKIP end where that many READ_ADV end, whatever was returned before the first. -/
theorem finish_opSkip (n : Nat) (s : State) (v : Result) (hs : Accepts s) :
    finish ((opSkip n s).next fun _ t => .done .none t) =
      .next (returning .none (issueAll (List.replicate n .readAdv) (returning v s))) := by
  induction n generalizing s v with
  | zero => rfl
  | succ n ih =>
    obtain ⟨hf, hq⟩ := hs
    have hexec : exec .readAdv (returning v s) =
        finish ((opReadAdv (returning v s)).next fun x t => .done (.nibble x) t) := by
      rw [exec_readAdv]
      exact hostWord_idle _ _ hf hq
    rw [List.replicate_succ]
    obtain ⟨c, hr⟩ | ⟨x, a, hr⟩ := opReadAdv_returning s
    · have hskip : opSkip (n + 1) s = .raised (raiseFault c (.word readAdvWord) s) :=
        opSkip_succ_of_raised n (hr s.result)
      rw [hr] at hexec
      rw [hskip, issueAll_cons _ hexec, issueAll_halted _ (by simp)]
      rfl
    · have hskip : opSkip (n + 1) s = opSkip n { s with addr := .val a } := opSkip_succ_of_done n (hr s.result)
      rw [hr] at hexec
      rw [hskip, issueAll_cons _ hexec]
      exact ih { s with addr := .val a } (.nibble x) ⟨hf, hq⟩

theorem exec_skip_eq_issueAll (n : Nat) {s : State} (hf : s.fault = []) :
    exec (.skip n) s = .next (returning .none (issueAll (List.replicate n .readAdv) s)) := by
  cases n with
  | zero => rw [exec_skip_zero, returnValue_ok _ hf]; rfl
  | succ n =>
    rw [exec_skip_succ]
    by_cases hq : s.seq = .idle
    · rw [hostWord_idle _ _ hf hq]
      exact finish_opSkip (n + 1) s s.result ⟨hf, hq⟩
    · have hbusy : issueAll (.readAdv :: List.replicate n .readAdv) s = _ :=
        issueAll_session (w := readAdvWord) _ rfl hf hq
      rw [hostWord_busy _ _ hf hq, List.replicate_succ, hbusy]
      rfl

theorem exec_seek_eq_issueAll (a : Nat) {s : State} (hf : s.fault = []) :
    exec (.seek a) s = .next (returning .none (issueAll (.reset :: List.replicate a .readAdv) s)) := by
  rw [exec_seek]
  by_cases hq : s.seq = .idle
  · have hreset : exec .reset s = .next (returning .none (opReset s)) := by
      rw [exec_reset, hostWord_idle _ _ hf hq]
      rfl
    rw [hostWord_idle _ _ hf hq, issueAll_cons _ hreset]
    exact finish_opSkip a (opReset s) .none ⟨hf, hq⟩
  · have hbusy : issueAll (.reset :: List.replicate a .readAdv) s = _ :=
      issueAll_session (w := 0x10#8) _ rfl hf hq
    rw [hostWord_busy _ _ hf hq, hbusy]
    rfl

theorem map_decodeWord_replicate (n : Nat) :
    (List.replicate n 0x60#8).map decodeWord = List.replicate n .readAdv := List.map_replicate

/-- Settles O10: the words of the expansion are `n` READ_ADV, for SEEK after a RESET. -/
theorem pseudoOperationsAreTheirExpansion : Obligations.PseudoOperationsAreTheirExpansion := by
  rintro i s (⟨n, rfl⟩ | ⟨a, rfl, -⟩) hf
  · rw [exec_skip_eq_issueAll n hf, Instr.expansion, map_decodeWord_replicate]
  · rw [exec_seek_eq_issueAll a hf, Instr.expansion, List.map_cons, map_decodeWord_replicate]
    rfl

end Sys2Proof.Machine
end

section
/-!
PROOFS. The driver operations (40_driver.md R100 to R108) and the count of advances (R112): what an accepted word does is
read off the lemma of its operation in Laws/Ops.lean.
-/

namespace Sys2Proof.Machine

open Sys2Proof.Spec

/-! ### Words without an operand -/

/-- A reserved word only takes its fault (R72). -/
theorem exec_decodeWord_reserved {w : Byte} {s : State} (hw : wordReserved w = true) (hf : s.fault = []) :
    exec (decodeWord w) s = .next (faulted .reserved (.word w) s) := by
  rw [decodeWord_of_reserved hw, exec_opwReserved, whenRunning_ok hf]
  rfl

/-- The words of R71 without an operand are reserved for every other NIB (R72). -/
theorem wordReserved_of_nib {w : Byte} (hw : w ∈ [0x10#8, 0x20#8, 0x30#8, 0x40#8, 0x50#8, 0x60#8]) {n : Nibble}
    (hn : n ≠ 0#4) : wordReserved (w ||| n.setWidth 8) = true := by
  revert w n
  decide

/-- An accepted host word that applies one update. -/
theorem exec_update_accepted {i : Instr} {w : Byte} {effect : State → State}
    (he : ∀ s, exec i s = hostWord w (fun s => .done .none (effect s)) s) {s : State} (hs : Accepts s) :
    exec i s = .next (returning .none (effect s)) := by
  rw [he, hostWord_idle _ _ hs.1 hs.2]
  rfl

/-- A host word that applies one update is a plain word of that update. -/
theorem plainWord_of_hostWord {i : Instr} {w : Byte} {effect : State → State} (hd : decodeWord w = i)
    (hw : w ∈ [0x10#8, 0x20#8, 0x30#8, 0x40#8, 0x50#8, 0x60#8])
    (he : ∀ s, exec i s = hostWord w (fun s => .done .none (effect s)) s) : PlainWord i w effect := by
  refine ⟨hd, fun s hs => exec_update_accepted he hs, fun s hf hq => ?_, fun n s hn hf => ?_⟩
  · rw [he, hostWord_busy _ _ hf hq]
    rfl
  · exact exec_decodeWord_reserved (wordReserved_of_nib hw hn) hf

/-- Settles O1: RESET is a plain word, and the state it leaves is accepting with ADDR = 0 already. -/
theorem resetClearsCounter : Obligations.ResetClearsCounter := by
  refine ⟨plainWord_of_hostWord rfl (by decide) exec_reset, fun s t hs h => ?_⟩
  rw [exec_update_accepted exec_reset hs] at h
  cases h
  exact exec_update_accepted exec_reset hs

/-- Settles O2: MODE_READ is a plain word. -/
theorem modeReadSetsReadMode : Obligations.ModeReadSetsReadMode :=
  plainWord_of_hostWord rfl (by decide) exec_modeRead

/-- Settles O3: MODE_WRITE is a plain word. -/
theorem modeWriteSetsWriteMode : Obligations.ModeWriteSetsWriteMode :=
  plainWord_of_hostWord rfl (by decide) exec_modeWrite

/-- Settles O4: WP_ASSERT and WP_DEASSERT are plain words. -/
theorem writeProtectWordsSetLine : Obligations.WriteProtectWordsSetLine :=
  ⟨plainWord_of_hostWord rfl (by decide) exec_wpAssert, plainWord_of_hostWord rfl (by decide) exec_wpDeassert⟩

/-! ### READ_ADV and WRITE_ADV -/

theorem exec_readAdv_of_done {s t : State} {v : Nibble} (hs : Accepts s) (h : opReadAdv s = .done v t) :
    exec .readAdv s = .next (returning (.nibble v) t) := by
  rw [exec_readAdv, hostWord_idle _ _ hs.1 hs.2, h]
  rfl

theorem exec_readAdv_of_raised {s t : State} (hs : Accepts s) (h : opReadAdv s = .raised t) :
    exec .readAdv s = .next t := by
  rw [exec_readAdv, hostWord_idle _ _ hs.1 hs.2, h]
  rfl

theorem exec_writeAdv_of_done {n : Nibble} {s t : State} (hs : Accepts s) (h : opWriteAdv n s = .done () t) :
    exec (.writeAdv n) s = .next (returning .none t) := by
  rw [exec_writeAdv, hostWord_idle _ _ hs.1 hs.2, h]
  rfl

theorem exec_writeAdv_of_raised {n : Nibble} {s t : State} (hs : Accepts s) (h : opWriteAdv n s = .raised t) :
    exec (.writeAdv n) s = .next t := by
  rw [exec_writeAdv, hostWord_idle _ _ hs.1 hs.2, h]
  rfl

/-- Settles O5: each clause is a case of `opReadAdv`, or a word that is not accepted. -/
theorem readAdvReadsThenAdvances : Obligations.ReadAdvReadsThenAdvances :=
  ⟨rfl,
    fun _ _ hs ha hm h => exec_readAdv_of_done hs (opReadAdv_ok ha hm h),
    fun _ hs ha => exec_readAdv_of_raised hs (opReadAdv_unknown ha),
    fun _ _ hs ha hm => exec_readAdv_of_raised hs (opReadAdv_mode ha hm),
    fun _ hs ha hm => exec_readAdv_of_raised hs (opReadAdv_pastEnd ha hm (Nat.le_refl _)),
    fun s hf hq => (exec_readAdv s).trans (hostWord_busy _ _ hf hq),
    fun _ _ hn hf => exec_decodeWord_reserved (wordReserved_of_nib (by decide) hn) hf⟩

/-- A nibble after MemWrite (R52, R53). -/
theorem Memory.read_write {m : Memory} (a : Nat) (v : Nibble) (b : Nat) (hm : m.wf = true) :
    (m.write a v).read b = if b = a then v else m.read b := by
  split
  · next h => rw [h, Memory.read_write_same a v hm]
  · next h => rw [Memory.read_write_other v h]

/-- Settles O6: each clause is a case of `opWriteAdv`, or F_BUSY; the memory it leaves is the one after MemWrite. -/
theorem writeAdvStoresThenAdvances : Obligations.WriteAdvStoresThenAdvances := fun n =>
  ⟨decodeWord_writeAdvWord n,
    fun s a hs hwf ha hm hw h =>
      ⟨s.mem.write a n, exec_writeAdv_of_done hs (opWriteAdv_ok n ha hm hw h), fun b => Memory.read_write a n b hwf⟩,
    fun _ hs ha => exec_writeAdv_of_raised hs (opWriteAdv_unknown n ha),
    fun _ _ hs ha hm => exec_writeAdv_of_raised hs (opWriteAdv_mode n ha hm),
    fun _ _ hs ha hm hw => exec_writeAdv_of_raised hs (opWriteAdv_wp n ha hm hw),
    fun _ hs ha hm hw => exec_writeAdv_of_raised hs (opWriteAdv_pastEnd n ha hm hw (Nat.le_refl _)),
    fun s hf hq => (exec_writeAdv s n).trans (hostWord_busy _ _ hf hq)⟩

/-! ### SKIP and SEEK -/

/-- An accepted SKIP runs its reads; SKIP 0 runs none. -/
theorem exec_skip_accepted (n : Nat) {s : State} (hs : Accepts s) :
    exec (.skip n) s = finish ((opSkip n s).next fun _ t => .done .none t) := by
  cases n with
  | zero =>
    rw [exec_skip_zero, returnValue_ok _ hs.1]
    rfl
  | succ n => rw [exec_skip_succ, hostWord_idle _ _ hs.1 hs.2]

theorem exec_skip_of_raised {n : Nat} {s t : State} (hs : Accepts s) (h : opSkip n s = .raised t) :
    exec (.skip n) s = .next t := by
  rw [exec_skip_accepted n hs, h, Run.next_raised, finish_raised]

theorem opSkip_pastEnd {s : State} {a : Nat} (n : Nat) (ha : s.addr = .val a) (hm : s.mode = .read) (ha' : a ≤ 1024)
    (h : 1024 < a + n) :
    opSkip n s = .raised (raiseFault .pastEnd (.word readAdvWord) { s with addr := .val 1024 }) := by
  rw [opSkip, readMany_pastEnd n ha hm ha' h, Run.next_raised]

/-- A SKIP whose first READ_ADV faults faults there. -/
theorem opSkip_of_raised {n : Nat} {s t : State} (hn : 0 < n) (h : opReadAdv s = .raised t) : opSkip n s = .raised t := by
  obtain ⟨k, rfl⟩ := Nat.exists_eq_succ_of_ne_zero hn.ne'
  exact opSkip_succ_of_raised k h

/-- Settles O9: the reads that fit move ADDR by their number; else one at 1024, or the first, faults. -/
theorem skipAdvancesByCount : Obligations.SkipAdvancesByCount := by
  refine ⟨fun n s a hs ha hm h => ?_, fun n s a hs ha hm ha' h => ?_, fun n s a hs hn ha hm => ?_,
    fun n s hs hn ha => ?_⟩
  · rw [exec_skip_accepted n hs, opSkip_ok n ha hm h]
    rfl
  · exact exec_skip_of_raised hs (opSkip_pastEnd n ha hm ha' h)
  · exact exec_skip_of_raised hs (opSkip_of_raised hn (opReadAdv_mode ha hm))
  · exact exec_skip_of_raised hs (opSkip_of_raised hn (opReadAdv_unknown ha))

theorem exec_seek_accepted (a : Nat) {s : State} (hs : Accepts s) :
    exec (.seek a) s = finish ((opSkip a (opReset s)).next fun _ t => .done .none t) := by
  rw [exec_seek, hostWord_idle _ _ hs.1 hs.2]

/-- Settles O11: the reads of SEEK start at the 0 that its RESET left; SEEK 0 has none, so it asks for no mode. -/
theorem seekReachesAddress : Obligations.SeekReachesAddress := by
  refine ⟨fun a s hs hm h => ?_, fun s hs => ?_⟩
  · have hskip : opSkip a (opReset s) = .done () { s with addr := .val (0 + a) } :=
      opSkip_ok a (opReset_addr s) hm (by omega)
    rw [exec_seek_accepted a hs, hskip, Nat.zero_add]
    rfl
  · rw [exec_seek_accepted 0 hs]
    rfl

/-! ### The count of advances (R112) -/

/-- READ_ADV at a known counter: a fault, or one advance that stays within 1024. -/
theorem opReadAdv_cases {s : State} {a : Nat} (ha : s.addr = .val a) :
    (∃ c, opReadAdv s = .raised (raiseFault c (.word readAdvWord) s)) ∨
    (a < 1024 ∧ opReadAdv s = .done (s.mem.read a) { s with addr := .val (a + 1) }) := by
  by_cases hm : s.mode = .read
  · by_cases h : a < 1024
    · exact .inr ⟨h, opReadAdv_ok ha hm h⟩
    · exact .inl ⟨.pastEnd, opReadAdv_pastEnd ha hm (by omega)⟩
  · exact .inl ⟨.mode, opReadAdv_mode ha hm⟩

/-- WRITE_ADV at a known counter: a fault, or one advance that stays within 1024. -/
theorem opWriteAdv_cases {s : State} {a : Nat} (n : Nibble) (ha : s.addr = .val a) :
    (∃ c, opWriteAdv n s = .raised (raiseFault c (.word (writeAdvWord n)) s)) ∨
    (a < 1024 ∧ opWriteAdv n s = .done () { s with mem := s.mem.write a n, addr := .val (a + 1) }) := by
  by_cases hm : s.mode = .write
  · obtain hw | hw : s.wp = .asserted ∨ s.wp = .deasserted := by cases s.wp <;> simp
    · exact .inl ⟨.wp, opWriteAdv_wp n ha hm hw⟩
    · by_cases h : a < 1024
      · exact .inr ⟨h, opWriteAdv_ok n ha hm hw h⟩
      · exact .inl ⟨.pastEnd, opWriteAdv_pastEnd n ha hm hw (by omega)⟩
  · exact .inl ⟨.mode, opWriteAdv_mode n ha hm⟩

/-- An accepting block that has advanced `a` times since its RESET. -/
def Advanced (a : Nat) (s : State) : Prop := Accepts s ∧ s.addr = .val a ∧ a ≤ 1024

/-- A primitive faults, or the count goes on by the nibbles it moves. -/
theorem exec_primitive_advances {i : Instr} {s : State} {a : Nat} (hi : isPrimitive i = true) (h : Advanced a s) :
    ∃ t, exec i s = .next t ∧ (t.fault ≠ [] ∨ Advanced (a + advances i) t) := by
  obtain ⟨hs, ha, hle⟩ := h
  cases i with
  | modeRead => exact ⟨_, exec_update_accepted exec_modeRead hs, .inr ⟨hs, ha, hle⟩⟩
  | modeWrite => exact ⟨_, exec_update_accepted exec_modeWrite hs, .inr ⟨hs, ha, hle⟩⟩
  | wpAssert => exact ⟨_, exec_update_accepted exec_wpAssert hs, .inr ⟨hs, ha, hle⟩⟩
  | wpDeassert => exact ⟨_, exec_update_accepted exec_wpDeassert hs, .inr ⟨hs, ha, hle⟩⟩
  | readAdv =>
    obtain ⟨c, hop⟩ | ⟨hlt, hop⟩ := opReadAdv_cases ha
    · exact ⟨_, exec_readAdv_of_raised hs hop, .inl (by simp)⟩
    · exact ⟨_, exec_readAdv_of_done hs hop, .inr ⟨hs, rfl, hlt⟩⟩
  | writeAdv n =>
    obtain ⟨c, hop⟩ | ⟨hlt, hop⟩ := opWriteAdv_cases n ha
    · exact ⟨_, exec_writeAdv_of_raised hs hop, .inl (by simp)⟩
    · exact ⟨_, exec_writeAdv_of_done hs hop, .inr ⟨hs, rfl, hlt⟩⟩
  | _ => cases hi

/-- Along primitives that raise no fault the count goes on by what they move: a fault of any of them would stay to the end
(R246). -/
theorem issueAll_advances {is : List Instr} {s : State} {a : Nat} (hp : is.all isPrimitive = true) (h : Advanced a s)
    (hf : (issueAll is s).fault = []) : Advanced (a + (is.map advances).sum) (issueAll is s) := by
  induction is generalizing s a with
  | nil => exact h
  | cons i is ih =>
    obtain ⟨hi, his⟩ : isPrimitive i = true ∧ is.all isPrimitive = true := by simpa using hp
    obtain ⟨t, he, hfault | ht⟩ := exec_primitive_advances hi h
    · rw [issueAll_cons is he, issueAll_halted is hfault] at hf
      exact absurd hf hfault
    · rw [issueAll_cons is he] at hf ⊢
      rw [List.map_cons, List.sum_cons, ← Nat.add_assoc]
      exact ih his ht hf

/-- Settles O12: the count starts at the 0 that RESET left. -/
theorem counterCountsAdvances : Obligations.CounterCountsAdvances := by
  intro is s hp hs ha hf
  obtain ⟨-, haddr, hle⟩ := issueAll_advances hp (⟨hs, ha, by omega⟩ : Advanced 0 s) hf
  rw [Nat.zero_add] at haddr hle
  exact ⟨haddr, hle⟩

end Sys2Proof.Machine
end

section
/-!
PROOFS. The frequency/offset codec and the display texts (41_codec.md R130 to R138, 42_list.md R166, 43_transport.md R197).
Each function of the model is first shown equal to the rules' own formula; what an operation returns, the ranges and the
texts are read off these equations.
-/

namespace Sys2Proof.Machine

open Sys2Proof.Spec

/-! ### Operations that return a value -/

theorem exec_of_returnValue {i : Instr} {v : Result} {s : State} (he : exec i s = returnValue v s) (hf : s.fault = []) :
    exec i s = .next (returning v s) := he.trans (returnValue_ok v hf)

/-! ### Offsets (R130) -/

theorem offsetTens_toNat (hi : Nibble) : (offsetTens hi).toNat = hi.toNat % 8 := by
  revert hi
  decide

theorem decodeOffset_eq_offsetValue (lo hi : Nibble) : decodeOffset lo hi = offsetValue lo hi := by
  simp [decodeOffset, offsetValue, offsetSign, offsetTens_toNat]

/-- A magnitude is at most 7 tens and LO units. -/
theorem offsetValue_within (lo hi : Nibble) :
    -(70 + lo.toNat) ≤ offsetValue lo hi ∧ offsetValue lo hi ≤ 70 + lo.toNat := by
  have htens : hi.toNat % 8 ≤ 7 := by omega
  rw [offsetValue]
  split <;> omega

/-- Settles O17: the model's value is R130's, whose magnitude is at most 70 + LO. -/
theorem decodeOffsetGivesSignedValue : Obligations.DecodeOffsetGivesSignedValue := by
  intro lo hi s hf
  have hexec := exec_of_returnValue (exec_decodeOffset s lo hi) hf
  rw [decodeOffset_eq_offsetValue] at hexec
  obtain ⟨hlow, hhigh⟩ := offsetValue_within lo hi
  have hlo := lo.isLt
  exact ⟨hexec, by omega, by omega, fun _ => by omega⟩

/-! ### Normalization (R132) -/

/-- The borrow finds nothing to do after a carry, so the two steps are one case split. -/
theorem normalizePair_eq_normalized (m a : Int) : normalizePair m a = normalized m a := by
  rw [normalizePair, carryStep, normalized]
  by_cases hcarry : 10000 ≤ a
  · rw [if_pos hcarry, if_pos hcarry]
    exact if_neg (by show ¬ a - 10000 < 0; omega)
  · rw [if_neg hcarry, if_neg hcarry]
    rfl

theorem normalized_acc_range (m : Int) {a : Int} (hlow : -10000 ≤ a) (hhigh : a ≤ 19999) :
    0 ≤ (normalized m a).2 ∧ (normalized m a).2 ≤ 9999 := by
  rw [normalized]
  split_ifs <;> dsimp only <;> omega

theorem normalized_mhz_range (m a : Int) : m - 1 ≤ (normalized m a).1 ∧ (normalized m a).1 ≤ m + 1 := by
  rw [normalized]
  split_ifs <;> dsimp only <;> omega

/-- Settles O18: the two steps are one correction, which brings −10000..19999 into 0..9999. -/
theorem normalizeCorrectsOnce : Obligations.NormalizeCorrectsOnce := by
  intro m a s hf
  have hexec := exec_of_returnValue (exec_normalize s m a) hf
  rw [normalizePair_eq_normalized] at hexec
  exact ⟨hexec, normalized_acc_range m⟩

/-! ### Frequencies (R131, R133, R134) -/

theorem decodeFreq_eq_frequency (fb : FreqField) (ofs : Int) : decodeFreq fb ofs = frequency fb ofs := by
  simp only [decodeFreq, frequency, isBlank, decide_eq_true_eq, normalizePair_eq_normalized, fieldMhz, fieldAcc]

theorem exec_decodeFreq_returns (fb : FreqField) (ofs : Int) {s : State} (hf : s.fault = []) :
    exec (.decodeFreq fb ofs) s = .next (returning (.freq (frequency fb ofs)) s) := by
  rw [← decodeFreq_eq_frequency]
  exact exec_of_returnValue (exec_decodeFreq s fb ofs) hf

/-- Settles O19: the model's frequency is R131's, and its sums do not name FB[7] and FB[8]. -/
theorem decodeFreqGivesFrequency : Obligations.DecodeFreqGivesFrequency :=
  ⟨fun fb ofs _ hf => exec_decodeFreq_returns fb ofs hf, fun _ _ _ _ _ => rfl⟩

/-- Where DECODE_FREQ answers a frequency, it is the normalized sums of the field and FB[0]. -/
theorem decodeFreq_answer {fb : FreqField} {ofs m a : Int} {d0 : Nibble} {s t : State}
    (h : exec (.decodeFreq fb ofs) s = .next t) (ht : t.result = .freq (.freq m a d0)) :
    normalized (fieldMhz fb) (fieldAcc fb + ofs) = (m, a) ∧ d0 = fb.fb0 := by
  rw [exec_decodeFreq_returns fb ofs (exec_next h).1] at h
  cases h
  have hfreq : frequency fb ofs = .freq m a d0 := Result.freq.inj ht
  rw [frequency] at hfreq
  split at hfreq
  · cases hfreq
  · cases hfreq
    exact ⟨rfl, rfl⟩

theorem fieldMhz_range (fb : FreqField) : 0 ≤ fieldMhz fb ∧ fieldMhz fb ≤ 165 := by
  have h6 := fb.fb6.isLt
  have h5 := fb.fb5.isLt
  rw [fieldMhz]
  omega

theorem fieldAcc_range (fb : FreqField) : 0 ≤ fieldAcc fb ∧ fieldAcc fb ≤ 16665 := by
  have h4 := fb.fb4.isLt
  have h3 := fb.fb3.isLt
  have h2 := fb.fb2.isLt
  have h1 := fb.fb1.isLt
  rw [fieldAcc]
  omega

/-- Settles O20: the digits give at most 165 MHz and 16665 units, so with the offset one correction reaches 0..9999 and moves
the MHz count by at most 1. -/
theorem frequencyRanges : Obligations.FrequencyRanges := by
  intro fb ofs s t m a d0 hlow hhigh h ht
  obtain ⟨hnorm, -⟩ := decodeFreq_answer h ht
  have hmhz := fieldMhz_range fb
  have hfield := fieldAcc_range fb
  have hacc := normalized_acc_range (fieldMhz fb) (a := fieldAcc fb + ofs) (by omega) (by omega)
  have hstep := normalized_mhz_range (fieldMhz fb) (fieldAcc fb + ofs)
  rw [hnorm] at hacc hstep
  dsimp only at hacc hstep
  omega

/-- Settles O21: the normalization takes and gives no display digit. -/
theorem offsetNeverChangesDisplayDigit : Obligations.OffsetNeverChangesDisplayDigit :=
  fun _ _ _ _ _ _ _ h ht => (decodeFreq_answer h ht).2

/-! ### Decimal numerals -/

theorem digitChar_eq {d : Nat} (h : d < 10) : digitChar d = chr (Nat.digitChar d) := by
  revert d
  decide

theorem decimal_of_lt {n : Nat} (h : n < 10) : decimal n = [digitChar n] := by
  rw [decimal, Nat.toDigits_of_lt_base h, digitChar_eq h]
  rfl

theorem decimal_of_ge {n : Nat} (h : 10 ≤ n) : decimal n = decimal (n / 10) ++ [digitChar (n % 10)] := by
  rw [decimal, Nat.toDigits_of_base_le (by decide) h, List.map_append, digitChar_eq (Nat.mod_lt n (by decide))]
  rfl

/-- With fuel for its digits the loop puts the numeral in front. -/
theorem decLoop_eq {fuel n : Nat} (h : n < fuel) (acc : Line) : decLoop fuel n acc = decimal n ++ acc := by
  induction fuel generalizing n acc with
  | zero => omega
  | succ fuel ih =>
    rw [decLoop]
    by_cases hn : n < 10
    · rw [if_pos hn, decimal_of_lt hn]
      rfl
    · rw [if_neg hn, ih (by omega), decimal_of_ge (n := n) (by omega), List.append_assoc]
      rfl

@[simp] theorem dec_eq_decimal (n : Nat) : dec n = decimal n := by
  rw [dec, decLoop_eq (Nat.lt_succ_self n), List.append_nil]

@[simp] theorem padded_eq_zeroPadded (w n : Nat) : padded w n = zeroPadded w n := by
  rw [padded, dec_eq_decimal, zeroPadded]

theorem decInt_eq (m : Int) : decInt m = (if m < 0 then [chr '-'] else []) ++ decimal m.natAbs := by
  rw [decInt, dec_eq_decimal]
  split <;> rfl

theorem paddedInt_eq_signedPadded (w : Nat) (n : Int) : paddedInt w n = signedPadded w n := by
  rw [paddedInt, padded_eq_zeroPadded, signedPadded]
  split <;> rfl

/-! ### Texts of offsets and frequencies (R135 to R137) -/

theorem renderOffset_eq (lo hi : Nibble) :
    renderOffset lo hi = (if 8 ≤ hi.toNat then [chr '-'] else [chr '+']) ++ decimal (hi.toNat % 8) ++ [chr '.'] ++
      decimal lo.toNat ++ kHz := by
  simp only [renderOffset, dec_eq_decimal, offsetTens_toNat, offsetSign, decide_eq_true_eq]
  split <;> rfl

/-- Settles O22: the model's text is R135's. -/
theorem renderOffsetText : Obligations.RenderOffsetText := by
  intro lo hi s hf
  rw [← renderOffset_eq]
  exact exec_of_returnValue (exec_renderOffset s lo hi) hf

/-- The text of a frequency, around its kHz field (R136). -/
theorem exec_renderFreq_returns (m a : Int) (d0 : Nibble) {s : State} (hf : s.fault = []) :
    exec (.renderFreq (.freq m a d0)) s = .next (returning (.text
      ((if m < 0 then [chr '-'] else []) ++ decimal m.natAbs ++ [chr ' '] ++ kHzField a d0 ++ kHz)) s) := by
  rw [← decInt_eq]
  exact exec_of_returnValue (exec_renderFreq s _) hf

/-- Settles O23: the kHz field of an accumulator that is not negative is R136's; that of a negative one is R136's of the
two free values of that accumulator. -/
theorem renderFreqText : Obligations.RenderFreqText := by
  refine ⟨fun m a d0 s hf ha => ?_, fun s hf => exec_of_returnValue (exec_renderFreq s .blank) hf,
    fun a ha => ⟨Config.negQuotient a, Config.negRemainder a, fun m d0 s hf => ?_⟩⟩
  · rw [exec_renderFreq_returns m a d0 hf, kHzField_nonneg ha, padded_eq_zeroPadded, padded_eq_zeroPadded]
    simp only [List.append_assoc]
  · rw [exec_renderFreq_returns m a d0 hf, kHzField_neg ha, kHzNumerals, paddedInt_eq_signedPadded,
      paddedInt_eq_signedPadded]
    simp only [List.append_assoc]

/-! ### Modes, channels and Verify reports (R138, R166, R197) -/

theorem modeName_eq (m : Nibble) :
    modeName m = (["LSB", "USB", "AM", "CW", "RTTY", "FM"][m.toNat]?).map fun t => t.toList.map chr := by
  revert m
  decide

theorem channelLabel_memory {n : Nat} (h : 1 ≤ n) :
    channelLabel n = "MEM ".toList.map chr ++ zeroPadded 2 n ++ [chr ':'] := by
  rw [channelLabel, if_neg (by omega), if_neg (by omega), Int.natAbs_natCast, padded_eq_zeroPadded]
  rfl

theorem hexChar_eq_hexDigit (v : Nibble) : hexChar v = hexDigit v := by
  revert v
  decide

/-- Inside R183's operands the label is the three digits of the table (R79). -/
theorem label_eq_addressLabel {a : Nat} (h : a ≤ 0x3FF) : label a = addressLabel a := by
  rw [label_inside (by omega), addressLabel, hexChar_eq_hexDigit, hexChar_eq_hexDigit, hexChar_eq_hexDigit]

/-- Settles O38: the fixed texts are compared character by character; numerals and labels are the rules' by their lemmas. -/
theorem displayTexts : Obligations.DisplayTexts := by
  refine ⟨modeName_eq, rfl, rfl, fun n h _ => channelLabel_memory h, rfl, fun a h => ?_⟩
  rw [verifyText, label_eq_addressLabel h]
  rfl

end Sys2Proof.Machine
end

section
/-!
PROOFS. The List session (42_list.md R160 to R169) as the address map gives it of the memory by random access: each helper
that `listSession_eq` speaks in is shown equal to the rules' own.
-/

namespace Sys2Proof.Machine

open Sys2Proof.Spec

/-! ### The offset entries (R80, R162, R163) -/

theorem entryPair_eq (p : Params) (m : Memory) (k : Nat) : entryPair p m k = (entryLo p m k, entryHi p m k) := by
  rw [entryPair, entryLo, entryHi, show 6 + 2 * k + 1 = 7 + 2 * k by omega]
  cases p.ofsNibbleOrder <;> rfl

theorem offsetSign_eq_msb (hi : Nibble) : offsetSign hi = hi.msb := by
  revert hi
  decide

theorem entryEvent_eq (p : Params) (m : Memory) (k : Nat) :
    entryEvent p m k = .ofsEntry k (entryHi p m k).msb (entryHi p m k &&& 7#4) (entryLo p m k) := by
  rw [entryEvent, entryPair_eq, offsetSign_eq_msb, offsetTens]

theorem entryOffset_eq_entryValue (p : Params) (m : Memory) (k : Nat) : entryOffset p m k = entryValue p m k := by
  rw [entryOffset, entryPair_eq, decodeOffset_eq_offsetValue, entryValue]

theorem filledTable_eq (p : Params) (m : Memory) :
    filledTable p m = (List.range 5).map fun k => some (entryValue p m k) := by
  simp only [filledTable, entryOffset_eq_entryValue]

/-! ### The channels (R61, R165, R169) -/

/-- The model's count of draws is the rules': both filter the records by the same nibbles. -/
theorem drawsBelow_eq_drawsBefore (m : Memory) (i : Nat) : drawsBelow m i = drawsBefore m i := rfl

/-- With the table that the session filled, OFFSET_FOR gives the decoded entry or the next draw. -/
theorem channelOfs_filledTable (p : Params) (m : Memory) (d i : Nat) :
    channelOfs (filledTable p m) m d i = channelOffset p m d i := by
  rw [channelOffset]
  split
  · next hentry =>
    refine (if_pos hentry).trans ?_
    rw [channelMode, ← entryOffset_eq_entryValue]
    exact congrArg (Option.getD · 0) (filledTable_get p m hentry)
  · next hdraw => exact if_neg hdraw

theorem channelEvent_filledTable (p : Params) (m : Memory) (d i : Nat) :
    channelEvent (filledTable p m) m d i =
      .channel ((i : Int) - 1) (channelMode m i) (frequency (channelField m i) (channelOffset p m d i)) := by
  rw [channelEvent, channelOfs_filledTable, decodeFreq_eq_frequency]
  rfl

/-! ### The whole List session (R160) -/

theorem walkEvents_eq_listEvents (p : Params) (m : Memory) (d : Nat) : walkEvents p m d = listEvents p m d := by
  rw [walkEvents, funext (entryEvent_eq p m), funext (channelEvent_filledTable p m d), decodeFreq_eq_frequency,
    decodeFreq_eq_frequency]
  rfl

/-- Settles O42: the walk's events, table and draws are those the address map gives. -/
theorem listSessionDecodesMemoryMap : Obligations.ListSessionDecodesMemoryMap := by
  intro c s hs
  rw [exec_cmdList, hostCommand_idle _ hs.1 hs.2, listSession_eq, finish_done, filledTable_eq, walkEvents_eq_listEvents,
    drawsBelow_eq_drawsBefore, ← hs.2]

end Sys2Proof.Machine
end

section
/-!
PROOFS. Read, Program and Verify never read OFS (42_list.md R170): a run from a state with another offset table is the same
run with that table put in the state it ends in. Proved for the accesses, for pieces one after the other, and so for each
operation.
-/

namespace Sys2Proof.Machine

open Sys2Proof.Spec

/-! ### Another offset table in the state -/

/-- The state with another offset table. -/
def State.withTable (o : List (Option Int)) (s : State) : State := { s with ofs := o }

/-- A run that ends with another offset table. -/
def Run.withTable {α : Type} (o : List (Option Int)) : Run α → Run α
  | .done a s => .done a (s.withTable o)
  | .raised s => .raised (s.withTable o)

/-- A piece that does the same whatever the offset table, and leaves the table it found. -/
def IgnoresTable {α : Type} (f : State → Run α) : Prop := ∀ o s, f (s.withTable o) = (f s).withTable o

theorem Run.next_withTable {α β : Type} {o : List (Option Int)} (r : Run α) {f : α → State → Run β}
    (hf : ∀ a, IgnoresTable (f a)) : (r.withTable o).next f = (r.next f).withTable o := by
  cases r with
  | done a s => exact hf a o s
  | raised s => rfl

theorem IgnoresTable.done {α : Type} (a : α) : IgnoresTable (Run.done a) := fun _ _ => rfl

theorem IgnoresTable.next {α β : Type} {r : State → Run α} {f : α → State → Run β} (hr : IgnoresTable r)
    (hf : ∀ a, IgnoresTable (f a)) : IgnoresTable fun s => (r s).next f :=
  fun o s => (congrArg (Run.next · f) (hr o s)).trans (Run.next_withTable (r s) hf)

theorem forEach_ignoresTable {α : Type} {f : α → State → Run Unit} (hf : ∀ x, IgnoresTable (f x)) :
    ∀ xs, IgnoresTable (forEach f xs)
  | [] => .done ()
  | x :: xs => (hf x).next fun _ => forEach_ignoresTable hf xs

/-! ### The driver accesses and the line functions ignore the table -/

theorem opReadAdv_ignoresTable : IgnoresTable opReadAdv := fun o s => by
  cases ha : s.addr with
  | unknown =>
    rw [opReadAdv_unknown ha, opReadAdv_unknown (s := s.withTable o) ha]
    rfl
  | val a =>
    by_cases hm : s.mode = .read
    · by_cases h : a < 1024
      · rw [opReadAdv_ok ha hm h, opReadAdv_ok (s := s.withTable o) ha hm h]
        rfl
      · rw [opReadAdv_pastEnd ha hm (by omega), opReadAdv_pastEnd (s := s.withTable o) ha hm (by omega)]
        rfl
    · rw [opReadAdv_mode ha hm, opReadAdv_mode (s := s.withTable o) ha hm]
      rfl

theorem opWriteAdv_ignoresTable (n : Nibble) : IgnoresTable (opWriteAdv n) := fun o s => by
  cases ha : s.addr with
  | unknown =>
    rw [opWriteAdv_unknown n ha, opWriteAdv_unknown (s := s.withTable o) n ha]
    rfl
  | val a =>
    by_cases hm : s.mode = .write
    · cases hw : s.wp with
      | asserted =>
        rw [opWriteAdv_wp n ha hm hw, opWriteAdv_wp (s := s.withTable o) n ha hm hw]
        rfl
      | deasserted =>
        by_cases h : a < 1024
        · rw [opWriteAdv_ok n ha hm hw h, opWriteAdv_ok (s := s.withTable o) n ha hm hw h]
          rfl
        · rw [opWriteAdv_pastEnd n ha hm hw (by omega), opWriteAdv_pastEnd (s := s.withTable o) n ha hm hw (by omega)]
          rfl
    · rw [opWriteAdv_mode n ha hm, opWriteAdv_mode (s := s.withTable o) n ha hm]
      rfl

theorem readMany_ignoresTable : ∀ n, IgnoresTable (readMany n)
  | 0 => .done []
  | n + 1 => opReadAdv_ignoresTable.next fun v => (readMany_ignoresTable n).next fun vs => .done (v :: vs)

theorem opEncodeRecord_ignoresTable (a : Nat) : IgnoresTable (opEncodeRecord a) :=
  (readMany_ignoresTable _).next fun _ _ _ => rfl

theorem programNibble_ignoresTable (v : Nibble) : IgnoresTable (programNibble v) := fun o s => by
  rw [programNibble, programNibble, opWriteAdv_ignoresTable v o s, State.withTable]
  dsimp only
  split <;> rfl

theorem verifyNibble_ignoresTable (v : Nibble) : IgnoresTable (verifyNibble v) := fun o s => by
  rw [verifyNibble, opReadAdv_ignoresTable o s]
  refine Run.next_withTable _ fun r o' t => ?_
  split <;> rfl

theorem opLine_ignoresTable {f : Nibble → State → Run Unit} (hf : ∀ v, IgnoresTable (f v)) (l : Line) :
    IgnoresTable (opLine f l) := fun o s => by
  by_cases hl : classify l = .data
  · cases hp : parseLine s.params l with
    | data vs =>
      rw [opLine_data f hl hp, opLine_data (s := s.withTable o) f hl hp, forEach_ignoresTable hf vs o s,
        Run.next_withTable _ fun _ => .done _]
    | reject =>
      rw [opLine_reject f hl hp, opLine_reject (s := s.withTable o) f hl hp]
      rfl
    | badHex =>
      rw [opLine_badHex f hl hp, opLine_badHex (s := s.withTable o) f hl hp]
      rfl
  · rw [opLine_notData f s hl, opLine_notData f (s.withTable o) hl]
    rfl

theorem readSession_ignoresTable : IgnoresTable readSession := fun o s => by
  rw [readSession_eq, readSession_eq]
  rfl

theorem programStart_ignoresTable (v : Result) : IgnoresTable fun s => .done v (programStart s) := fun _ _ => rfl

theorem verifyStart_ignoresTable (v : Result) : IgnoresTable fun s => .done v (verifyStart s) := fun _ _ => rfl

/-! ### The outcome with another table -/

theorem finish_withTable (o : List (Option Int)) (r : Run Result) : finish (r.withTable o) = withOfs o (finish r) := by
  cases r <;> rfl

theorem sequencerStep_withTable {f : State → Run Result} (hf : IgnoresTable f) (s : State) (o : List (Option Int)) :
    sequencerStep f { s with ofs := o } = withOfs o (sequencerStep f s) := by
  by_cases h : s.fault = []
  · rw [sequencerStep_ok f h, ← finish_withTable, ← hf]
    exact sequencerStep_ok f h
  · rw [sequencerStep_halted f h]
    exact sequencerStep_halted f h

theorem hostCommand_withTable {f : State → Run Result} (hf : IgnoresTable f) (s : State) (o : List (Option Int)) :
    hostCommand f { s with ofs := o } = withOfs o (hostCommand f s) := by
  by_cases h : s.fault = []
  · by_cases hq : s.seq = .idle
    · rw [hostCommand_idle f h hq, ← finish_withTable, ← hf]
      exact hostCommand_idle f h hq
    · rw [hostCommand_session f h hq]
      exact hostCommand_session f h hq
  · rw [hostCommand_halted f h]
    exact hostCommand_halted f h

/-- Settles O46: the accesses, the line functions and the prologues ignore the offset table, and so does the outcome. -/
theorem transportIgnoresOffsetTable : Obligations.TransportIgnoresOffsetTable := by
  intro i s o hi
  cases i with
  | cmdRead c => exact hostCommand_withTable readSession_ignoresTable s o
  | cmdProgram c => exact hostCommand_withTable (programStart_ignoresTable .none) s o
  | cmdVerify c => exact hostCommand_withTable (verifyStart_ignoresTable .none) s o
  | encodeRecord a =>
    exact sequencerStep_withTable ((opEncodeRecord_ignoresTable a).next fun t => .done (.text t)) s o
  | programLine l =>
    exact sequencerStep_withTable ((opLine_ignoresTable programNibble_ignoresTable l).next fun k => .done (.kind k)) s o
  | verifyLine l =>
    exact sequencerStep_withTable ((opLine_ignoresTable verifyNibble_ignoresTable l).next fun k => .done (.kind k)) s o
  | _ => cases hi

end Sys2Proof.Machine
end

section
/-!
PROOFS. Characters, labels and lines of the transport codec (43_transport.md R180, R181, R183 to R186, R189, R190): the
model's characters, values and kinds of line are shown to be the rules' own; what PARSE_LINE returns, and what the two line
functions do with a line whose nibbles they do not use, is read off these equations.
-/

namespace Sys2Proof.Machine

open Sys2Proof.Spec

/-! ### Hex characters and labels (R180, R181, R183) -/

/-- Settles O24: the model's digit is the one of the table. -/
theorem hexCharGivesUppercaseDigit : Obligations.HexCharGivesUppercaseDigit := by
  intro v s hf
  rw [← hexChar_eq_hexDigit]
  exact exec_of_returnValue (exec_hexChar s v) hf

/-- The model's ranges are the rules', with the characters as numbers. -/
theorem hexValue_eq_hexOf (lower : Bool) (c : Byte) : hexValue lower c = hexOf lower c := rfl

/-- Settles O25: the model's value is R181's. -/
theorem hexValueGivesValueOrSentinel : Obligations.HexValueGivesValueOrSentinel := by
  intro c s hf
  rw [← hexValue_eq_hexOf]
  exact exec_of_returnValue (exec_hexValue s c) hf

/-- Settles O26: inside R183's operands the model's label is the three digits. -/
theorem labelGivesThreeDigits : Obligations.LabelGivesThreeDigits := by
  intro a s hf h
  rw [← label_eq_addressLabel h]
  exact exec_of_returnValue (exec_label s a) hf

/-! ### Kinds of line (R184, R185) -/

theorem isRecLead_iff (c : Byte) : isRecLead c = true ↔ c ∈ [chr '0', chr '1', chr '2', chr '3'] := by
  revert c
  decide

theorem qualifyLine_iff_isData (l : Line) : qualifyLine l = true ↔ IsData l := by
  simp only [qualifyLine_iff, isRecLead_iff, IsData]

theorem classify_data_iff_isData (l : Line) : classify l = .data ↔ IsData l :=
  classify_data.trans (qualifyLine_iff_isData l)

theorem classify_skip_iff (l : Line) : classify l = .skip ↔ l ≠ [] ∧ ¬ IsData l := by
  rw [classify_skip, ← qualifyLine_iff_isData, Bool.not_eq_true]

/-- Settles O27: a line qualifies exactly where it is a data line, and the kinds follow. -/
theorem linesAreClassified : Obligations.LinesAreClassified := fun l s hf =>
  ⟨⟨qualifyLine l, exec_of_returnValue (exec_qualifyLine s l) hf, qualifyLine_iff_isData l⟩,
    classify l, exec_of_returnValue (exec_classify s l) hf, classify_end, classify_data_iff_isData l,
    classify_skip_iff l⟩

/-! ### The nibbles of a data line (R75, R186) -/

/-- The 64 nibbles of a line. -/
def lineNibbles (p : Params) (l : Line) : List Nibble := (List.range 64).map (lineNibble p l)

@[simp] theorem lineNibbles_length (p : Params) (l : Line) : (lineNibbles p l).length = 64 := by simp [lineNibbles]

theorem lineValues_eq_charValue (p : Params) {l : Line} (h : IsData l) :
    lineValues p.acceptLower l = (List.range 64).map (charValue p l) := lineValues_eq p.acceptLower h.1

/-- A data line has a bad value exactly where some data character is no hex digit. -/
theorem hexBad_mem_iff (p : Params) {l : Line} (h : IsData l) :
    Config.hexBad ∈ lineValues p.acceptLower l ↔ ¬ AllHex p l := by
  simp [lineValues_eq_charValue p h, AllHex]

theorem parseLine_of_usable {p : Params} {l : Line} (h : Usable p l) : parseLine p l = .data (lineNibbles p l) := by
  obtain ⟨hd, hgood⟩ := h
  rw [parseLine_usable (hgood.imp_left fun hall => by rwa [hexBad_mem_iff p hd, not_not]), lineValues_eq_charValue p hd,
    List.map_map]
  rfl

theorem parseLine_of_reject {p : Params} {l : Line} (h : IsData l) (hbad : ¬ AllHex p l)
    (hp : p.hexPolicy = .rejectLine) : parseLine p l = .reject := parseLine_reject ((hexBad_mem_iff p h).2 hbad) hp

theorem parseLine_of_fault {p : Params} {l : Line} (h : IsData l) (hbad : ¬ AllHex p l)
    (hp : p.hexPolicy = .fault) : parseLine p l = .badHex := parseLine_fault ((hexBad_mem_iff p h).2 hbad) hp

/-- PARSE_LINE of a data line answers what its characters and HEX_POLICY give. -/
theorem exec_parseLine_data {l : Line} {s : State} (hf : s.fault = []) (h : IsData l) :
    exec (.parseLine l) s =
      match parseLine s.params l with
      | .data vs => .next (returning (.parsed vs) s)
      | .reject => .next (returning .rejected s)
      | .badHex => .next (faulted .hex .parseLine s) := by
  rw [exec_parseLine, sequencerStep_ok _ hf, opParseLine_eq ((classify_data_iff_isData l).2 h)]
  cases parseLine s.params l <;> rfl

/-- Settles O28: the three results of parsing a data line. -/
theorem parseLineFollowsHexPolicy : Obligations.ParseLineFollowsHexPolicy := by
  intro l s hf hd
  refine ⟨fun hu => ?_, fun hbad hp => ?_, fun hbad hp => ?_⟩
  · rw [exec_parseLine_data hf hd, parseLine_of_usable hu]
    rfl
  · rw [exec_parseLine_data hf hd, parseLine_of_reject hd hbad hp]
  · rw [exec_parseLine_data hf hd, parseLine_of_fault hd hbad hp]

/-! ### PROGRAM_LINE and VERIFY_LINE around their accesses (R187, R188) -/

/-- A line function as a step, by what it does with a nibble. -/
def lineStep (f : Nibble → State → Run Unit) (l : Line) (s : State) : Host.Outcome State Fault Refusal :=
  sequencerStep (fun s => (opLine f l s).next fun k t => .done (.kind k) t) s

theorem exec_programLine_eq (l : Line) (s : State) : exec (.programLine l) s = lineStep programNibble l s := rfl

theorem exec_verifyLine_eq (l : Line) (s : State) : exec (.verifyLine l) s = lineStep verifyNibble l s := rfl

/-- The two line functions differ only in what they do with a nibble. -/
theorem exec_lineFunction {i : Instr} {l : Line} (hi : i = .programLine l ∨ i = .verifyLine l) :
    ∃ f, ∀ s, exec i s = lineStep f l s := by
  obtain rfl | rfl := hi
  · exact ⟨programNibble, exec_programLine_eq l⟩
  · exact ⟨verifyNibble, exec_verifyLine_eq l⟩

theorem lineStep_of_done {f : Nibble → State → Run Unit} {l : Line} {s t : State} {k : LineKind} (hf : s.fault = [])
    (h : opLine f l s = .done k t) : lineStep f l s = .next (returning (.kind k) t) := by
  rw [lineStep, sequencerStep_ok _ hf, h]
  rfl

theorem lineStep_of_raised {f : Nibble → State → Run Unit} {l : Line} {s t : State} (hf : s.fault = [])
    (h : opLine f l s = .raised t) : lineStep f l s = .next t := by
  rw [lineStep, sequencerStep_ok _ hf, h]
  rfl

/-- Settles O33: no nibble of such a line is used, so no access is made. -/
theorem otherLinesChangeNothing : Obligations.OtherLinesChangeNothing := by
  intro i l s hi hf
  obtain ⟨f, hexec⟩ := exec_lineFunction hi
  refine ⟨fun hl => ?_, fun hl hd => ?_, fun hd hbad hp => ?_⟩
  · have hkind := classify_end.2 hl
    rw [hexec, lineStep_of_done hf (opLine_notData f s (by simp [hkind])), hkind]
  · have hkind := (classify_skip_iff l).2 ⟨hl, hd⟩
    rw [hexec, lineStep_of_done hf (opLine_notData f s (by simp [hkind])), hkind]
  · have hkind := (classify_data_iff_isData l).2 hd
    rw [hexec, lineStep_of_done hf (opLine_reject f hkind (parseLine_of_reject hd hbad hp))]

/-- Settles O34: the whole line is parsed before its first nibble is used. -/
theorem hexFaultPrecedesAccesses : Obligations.HexFaultPrecedesAccesses := by
  intro i l s hi hf hd hbad hp
  obtain ⟨f, hexec⟩ := exec_lineFunction hi
  have hkind := (classify_data_iff_isData l).2 hd
  rw [hexec, lineStep_of_raised hf (opLine_badHex f hkind (parseLine_of_fault hd hbad hp))]
  rfl

/-! ### The label and the filler are not read (R189) -/

/-- Parsing reads a data line only at its data characters. -/
theorem parseLine_congr (p : Params) {l l' : Line} (h : IsData l) (h' : IsData l')
    (heq : ∀ j < 64, l.getD (5 + j) 0#8 = l'.getD (5 + j) 0#8) : parseLine p l = parseLine p l' := by
  have hvalues : lineValues p.acceptLower l = lineValues p.acceptLower l' := by
    rw [lineValues_eq_charValue p h, lineValues_eq_charValue p h']
    refine List.map_congr_left fun j hj => ?_
    rw [charValue, charValue, heq j (List.mem_range.1 hj)]
  rw [parseLine, parseLine, hvalues]

theorem opLine_congr (f : Nibble → State → Run Unit) {l l' : Line} (h : IsData l) (h' : IsData l')
    (heq : ∀ j < 64, l.getD (5 + j) 0#8 = l'.getD (5 + j) 0#8) : opLine f l = opLine f l' := by
  funext s
  have hkind := (classify_data_iff_isData l).2 h
  have hkind' := (classify_data_iff_isData l').2 h'
  rw [opLine, opLine, hkind, hkind', opParseLine_eq hkind, opParseLine_eq hkind', parseLine_congr s.params h h' heq]

/-- Settles O35: the two lines are parsed alike, and nothing else of a line is used. -/
theorem labelOfInputLineIsIgnored : Obligations.LabelOfInputLineIsIgnored := by
  intro l l' s h h' heq
  simp only [exec_programLine_eq, exec_verifyLine_eq, lineStep, opLine_congr _ h h' heq, and_self]

end Sys2Proof.Machine
end

section
/-!
PROOFS. Records (43_transport.md R182): what ENCODE_RECORD makes of the nibbles at the counter, within its operands and
outside them, and the operands of LABEL and PARSE_LINE that the spec gives no result (notes/assumptions/20.md, 27.md, 28.md).
-/

namespace Sys2Proof.Machine

open Sys2Proof.Spec

/-! ### The text of a record (R76, R182) -/

/-- A record's text labelled `a` of the 64 nibbles at `b`. -/
theorem recordText_slice (p : Params) (m : Memory) (a b : Nat) :
    recordText p a (m.slice b 64) =
      label a ++ p.recordFiller ++ (List.range 64).map fun j => hexDigit (m.read (b + j)) := by
  simp [recordText, Memory.slice, hexChar_eq_hexDigit, Function.comp_def]

theorem recordText_eq_recordOf (p : Params) (m : Memory) {a : Nat} (h : a ≤ 0x3FF) :
    recordText p a (m.slice a 64) = recordOf p m a := by
  rw [recordText_slice, label_eq_addressLabel h, recordOf]

theorem recordOf_length (p : Params) (m : Memory) (a : Nat) : (recordOf p m a).length = 69 := by
  simp [recordOf, addressLabel, Params.recordFiller]

/-! ### ENCODE_RECORD (R182) -/

/-- ENCODE_RECORD with 64 nibbles left, whatever its operand. -/
theorem exec_encodeRecord_ok (a : Nat) {b : Nat} {s : State} (hf : s.fault = []) (hb : s.addr = .val b)
    (h : b + 64 ≤ 1024) (hm : s.mode = .read) :
    exec (.encodeRecord a) s =
      .next { s with addr := .val (b + 64), result := .text (recordText s.params a (s.mem.slice b 64)) } := by
  rw [exec_encodeRecord, sequencerStep_ok _ hf, opEncodeRecord_ok a hb hm h]
  rfl

/-- ENCODE_RECORD with a read that faults. -/
theorem exec_encodeRecord_of_raised (a : Nat) {s t : State} (hf : s.fault = [])
    (h : readMany Config.recNibbles s = .raised t) : exec (.encodeRecord a) s = .next t := by
  rw [exec_encodeRecord, sequencerStep_ok _ hf, opEncodeRecord, h]
  rfl

/-- Settles O29: the label is that of the counter the 64 reads start at. -/
theorem encodeRecordBuildsLine : Obligations.EncodeRecordBuildsLine := by
  intro a s hf ha _ hle hm
  rw [exec_encodeRecord_ok a hf ha (by omega) hm, recordText_eq_recordOf s.params s.mem (by omega)]
  exact ⟨rfl, recordOf_length s.params s.mem a⟩

/-! ### Operands without a stated result -/

/-- PARSE_LINE of a line that is no data line returns the free value. -/
theorem exec_parseLine_other {l : Line} {s : State} (hf : s.fault = []) (h : ¬ IsData l) :
    exec (.parseLine l) s =
      match Config.unstatedParse s.params l with
      | none => .next (returning .rejected s)
      | some v => .next (returning (.parsed ((List.range 64).map v)) s) := by
  rw [exec_parseLine, sequencerStep_ok _ hf, opParseLine_other ((classify_data_iff_isData l).not.2 h)]
  cases Config.unstatedParse s.params l <;> rfl

/-- Settles O37: the free values are `Config.unstatedLabel` and `Config.unstatedParse`; everything around them is as in the
operands' domain. -/
theorem operandsOutsideTheirDomain : Obligations.OperandsOutsideTheirDomain := by
  refine ⟨fun a ha => ⟨Config.unstatedLabel a, ?_⟩, fun p l hl => ?_, fun a b s hf ha hb h hm => ?_⟩
  · have hlabel : label a = Config.unstatedLabel a := label_outside (by omega)
    refine ⟨fun s hf => ?_, fun b s hf hb h hm => ?_, ?_⟩
    · rw [← hlabel]
      exact exec_of_returnValue (exec_label s a) hf
    · rw [exec_encodeRecord_ok a hf hb h hm, recordText_slice, hlabel]
    · rw [verifyText, hlabel]
      rfl
  · cases hv : Config.unstatedParse p l with
    | none =>
      refine ⟨.rejected, .inl rfl, fun s hf hp => ?_⟩
      rw [exec_parseLine_other hf hl, hp, hv]
    | some v =>
      refine ⟨.parsed ((List.range 64).map v), .inr ⟨_, by simp, rfl⟩, fun s hf hp => ?_⟩
      rw [exec_parseLine_other hf hl, hp, hv]
  · rw [exec_encodeRecord_ok a hf hb h hm, recordText_slice, label_eq_addressLabel ha]

end Sys2Proof.Machine
end

section
/-!
PROOFS. PROGRAM_LINE and VERIFY_LINE of a line whose nibbles are used (43_transport.md R187, R188): the accesses of its 64
nibbles, and the first of them that faults.
-/

namespace Sys2Proof.Machine

open Sys2Proof.Spec

/-! ### The nibbles of a usable line, one after the other -/

theorem opLine_usable (f : Nibble → State → Run Unit) {l : Line} {s : State} (hu : Usable s.params l) :
    opLine f l s = (forEach f (lineNibbles s.params l) s).next fun _ u => .done .data u :=
  opLine_data f ((classify_data_iff_isData l).2 hu.1) (parseLine_of_usable hu)

theorem lineStep_usable_of_done {f : Nibble → State → Run Unit} {l : Line} {s t : State} (hf : s.fault = [])
    (hu : Usable s.params l) (h : forEach f (lineNibbles s.params l) s = .done () t) :
    lineStep f l s = .next (returning (.kind .data) t) :=
  lineStep_of_done hf (by rw [opLine_usable f hu, h, Run.next_done])

theorem lineStep_usable_of_raised {f : Nibble → State → Run Unit} {l : Line} {s t : State} (hf : s.fault = [])
    (hu : Usable s.params l) (h : forEach f (lineNibbles s.params l) s = .raised t) : lineStep f l s = .next t :=
  lineStep_of_raised hf (by rw [opLine_usable f hu, h, Run.next_raised])

theorem lineNibbles_eq_cons (p : Params) (l : Line) :
    lineNibbles p l = lineNibble p l 0 :: (List.range' 1 63).map (lineNibble p l) := by
  rw [lineNibbles, List.range_eq_range', List.range'_succ, List.map_cons]

theorem lineNibbles_take_getD (p : Params) (l : Line) {j n : Nat} (h : j < n) (h64 : j < 64) :
    ((lineNibbles p l).take n).getD j 0#4 = lineNibble p l j := by
  simp [lineNibbles, h, h64]

/-- A usable line whose first access faults. -/
theorem lineStep_of_first_raised {f : Nibble → State → Run Unit} {l : Line} {s t : State} (hf : s.fault = [])
    (hu : Usable s.params l) (h : f (lineNibble s.params l 0) s = .raised t) : lineStep f l s = .next t :=
  lineStep_usable_of_raised hf hu (by rw [lineNibbles_eq_cons, forEach_cons, h, Run.next_raised])

/-! ### PROGRAM_LINE (R187) -/

/-- The memory after a Program line at `a`: the nibbles that fit are stored. -/
def programmed (s : State) (l : Line) (a : Nat) : Memory :=
  s.mem.writeList a ((lineNibbles s.params l).take (1024 - a))

theorem exec_programLine_usable {l : Line} {s : State} {a : Nat} (hf : s.fault = []) (ha : s.addr = .val a)
    (hle : a ≤ 1024) (hm : s.mode = .write) (hw : s.wp = .deasserted) (hu : Usable s.params l) :
    exec (.programLine l) s =
      .next { s with mem := programmed s l a, addr := .val (min 1024 (a + 64)), result := .kind .data } := by
  rw [exec_programLine_eq, lineStep_usable_of_done hf hu (forEach_programNibble _ ha hle hm hw), lineNibbles_length]
  rfl

theorem programmed_wf {s : State} {a : Nat} (l : Line) (hwf : s.mem.wf = true) (hle : a ≤ 1024) :
    (programmed s l a).wf = true :=
  Memory.writeList_wf _ (by rw [List.length_take]; omega) hwf

theorem programmed_read {s : State} {a : Nat} (l : Line) (hwf : s.mem.wf = true) (hle : a ≤ 1024) (b : Nat) :
    (programmed s l a).read b =
      if a ≤ b ∧ b < a + 64 ∧ b < 1024 then lineNibble s.params l (b - a) else s.mem.read b := by
  have hlen : ((lineNibbles s.params l).take (1024 - a)).length = min (1024 - a) 64 := by simp
  rw [programmed, Memory.read_writeList _ b (by omega) hwf, hlen]
  by_cases hb : a ≤ b ∧ b < a + 64 ∧ b < 1024
  · rw [if_pos (by omega), if_pos hb, lineNibbles_take_getD _ _ (by omega) (by omega)]
  · rw [if_neg (by omega), if_neg hb]

/-- Settles O30: the nibbles that fit are stored from the counter on. -/
theorem programLineWritesDataLine : Obligations.ProgramLineWritesDataLine :=
  fun l s a hf hwf ha hle hm hw hu =>
    ⟨programmed s l a, exec_programLine_usable hf ha hle hm hw hu, programmed_read l hwf hle⟩

/-! ### VERIFY_LINE (R188) -/

/-- LASTMM after the first `n` compares of a line at `a`. -/
def mismatchOfLine (s : State) (l : Line) (a n : Nat) : Option Nat :=
  lastMismatch s.params s.mem a ((lineNibbles s.params l).take n) s.lastmm

theorem mismatchOfLine_match {s : State} {l : Line} {a n : Nat} (hn : n ≤ 64)
    (h : ∀ j < n, s.mem.read (a + j) = lineNibble s.params l j) : mismatchOfLine s l a n = s.lastmm := by
  refine lastMismatch_match _ _ _ a _ fun j hj => ?_
  have hjn : j < n := by simp at hj; omega
  rw [h j hjn, lineNibbles_take_getD _ _ hjn (by omega)]

theorem mismatchAt_val (p : Params) (a : Nat) :
    mismatchAt p (.val a) = some (match p.mismatchAddr with | .pre => a | .post => a + 1) := by
  cases h : p.mismatchAddr <;> simp [mismatchAt, h]

theorem mismatchOfLine_last {s : State} {l : Line} {a n j : Nat} (hn : n ≤ 64) (hj : j < n)
    (h : s.mem.read (a + j) ≠ lineNibble s.params l j)
    (hk : ∀ k, j < k → k < n → s.mem.read (a + k) = lineNibble s.params l k) :
    mismatchOfLine s l a n = mismatchAt s.params (.val (a + j)) := by
  refine lastMismatch_last _ _ _ a j _ (by simp; omega) ?_ fun k hjk hkl => ?_
  · rwa [lineNibbles_take_getD _ _ hj (by omega)]
  · have hkn : k < n := by simp at hkl; omega
    rw [hk k hjk hkn, lineNibbles_take_getD _ _ hkn (by omega)]

theorem exec_verifyLine_usable {l : Line} {s : State} {a : Nat} (hf : s.fault = []) (ha : s.addr = .val a)
    (hle : a + 64 ≤ 1024) (hm : s.mode = .read) (hu : Usable s.params l) :
    exec (.verifyLine l) s =
      .next { s with addr := .val (a + 64), lastmm := mismatchOfLine s l a 64, result := .kind .data } := by
  rw [exec_verifyLine_eq, lineStep_usable_of_done hf hu (forEach_verifyNibble _ ha hm (by simpa using hle)),
    mismatchOfLine, List.take_of_length_le (by simp), lineNibbles_length]
  rfl

/-- Settles O31: all 64 compares are made, and the last one that fails sets LASTMM last. -/
theorem verifyLineRecordsLastMismatch : Obligations.VerifyLineRecordsLastMismatch :=
  fun l s a hf ha hle hm hu =>
    ⟨mismatchOfLine s l a 64, exec_verifyLine_usable hf ha hle hm hu, mismatchOfLine_match (Nat.le_refl _),
      fun _ hj h hk => (mismatchOfLine_last (Nat.le_refl _) hj h hk).trans (mismatchAt_val _ _)⟩

/-- Settles O32: the compares up to address 1023 are made, and the next one faults. -/
theorem verifyLineFaultsPastEnd : Obligations.VerifyLineFaultsPastEnd := by
  intro l s a hf ha hle h64 hm hu
  refine ⟨mismatchOfLine s l a (1024 - a), ?_, fun h => ?_, fun j hj h hk => ?_⟩
  · rw [exec_verifyLine_eq,
      lineStep_usable_of_raised hf hu (forEach_verifyNibble_pastEnd _ ha hle hm (by simpa using h64))]
    rfl
  · exact mismatchOfLine_match (by omega) fun j hj => h j (by omega)
  · exact (mismatchOfLine_last (by omega) (by omega) h fun k hjk hkn => hk k hjk (by omega)).trans (mismatchAt_val _ _)

/-! ### The first access that faults (R105, R106) -/

theorem programNibble_unknown {s : State} (v : Nibble) (ha : s.addr = .unknown) :
    programNibble v s = .raised (raiseFault .addrUnknown (.word (writeAdvWord v)) s) := by
  simp [programNibble, pastLast, ha, opWriteAdv_unknown v ha]

/-- Below the end of the memory a nibble of a Program line is a WRITE_ADV. -/
theorem programNibble_below {s : State} {a : Nat} (v : Nibble) (ha : s.addr = .val a) (h : a < 1024) :
    programNibble v s = opWriteAdv v s := by
  simp [programNibble, pastLast, ha, Nat.not_le.2 h]

theorem verifyNibble_of_raised {s t : State} (v : Nibble) (h : opReadAdv s = .raised t) :
    verifyNibble v s = .raised t := by
  rw [verifyNibble, h, Run.next_raised]

theorem readMany_succ_of_raised (n : Nat) {s t : State} (h : opReadAdv s = .raised t) :
    readMany (n + 1) s = .raised t := by
  rw [readMany, h, Run.next_raised]

/-- Settles O36: outside the preconditions the first access faults; of a record past the end, the one at 1024. -/
theorem sequencerAccessesFault : Obligations.SequencerAccessesFault :=
  ⟨fun _ _ hf hu ha => ⟨lineStep_of_first_raised hf hu (programNibble_unknown _ ha),
      lineStep_of_first_raised hf hu (verifyNibble_of_raised _ (opReadAdv_unknown ha))⟩,
    fun _ _ _ hf hu ha h hm =>
      lineStep_of_first_raised hf hu ((programNibble_below _ ha h).trans (opWriteAdv_mode _ ha hm)),
    fun _ _ _ hf hu ha h hm hw =>
      lineStep_of_first_raised hf hu ((programNibble_below _ ha h).trans (opWriteAdv_wp _ ha hm hw)),
    fun _ _ _ hf hu ha hm => lineStep_of_first_raised hf hu (verifyNibble_of_raised _ (opReadAdv_mode ha hm)),
    fun a _ hf ha => exec_encodeRecord_of_raised a hf (readMany_succ_of_raised 63 (opReadAdv_unknown ha)),
    fun a _ _ hf hb hm => exec_encodeRecord_of_raised a hf (readMany_succ_of_raised 63 (opReadAdv_mode hb hm)),
    fun a _ _ hf hb hm hle h => exec_encodeRecord_of_raised a hf (readMany_pastEnd 64 hb hm hle h)⟩

end Sys2Proof.Machine
end

section
/-!
PROOFS. The Read, Program and Verify sessions (43_transport.md R193 to R197), and that a dump programmed into another block
and verified there is the identity (R198): each record of a dump gives back the nibbles it was made of, under any
parameters, so a fed session stays in step with the image, record by record.
-/

namespace Sys2Proof.Machine

open Sys2Proof.Spec

/-! ### The Read session (R193) -/

/-- The 16 lines of a dump. -/
def dumpLines (p : Params) (m : Memory) : List Line := (List.range 16).map fun b => recordOf p m (64 * b)

theorem map_dumpEvent (p : Params) (m : Memory) :
    (List.range 16).map (dumpEvent p m) = (dumpLines p m).map Event.line := by
  rw [dumpLines, List.map_map]
  refine List.map_congr_left fun b hb => ?_
  have hb16 : b < 16 := List.mem_range.1 hb
  rw [dumpEvent, recordText_eq_recordOf p m (by omega)]
  rfl

theorem exec_cmdRead_accepted (c : Line) {s : State} (hs : Accepts s) :
    exec (.cmdRead c) s = .next { s with
      addr := .val 1024, mode := .read, result := .none,
      out := s.out ++ (dumpLines s.params s.mem).map Event.line } := by
  rw [exec_cmdRead, hostCommand_idle _ hs.1 hs.2, readSession_eq, map_dumpEvent, finish_done, ← hs.2]

/-- Settles O39: the events of the session are the 16 records. -/
theorem readSessionDumpsMemory : Obligations.ReadSessionDumpsMemory := by
  intro c s hs
  rw [exec_cmdRead_accepted c hs, dumpLines, List.map_map]
  rfl

/-! ### The Program and Verify sessions (R194, R196, R197) -/

theorem exec_cmdProgram_accepted (c : Line) {s : State} (hs : Accepts s) :
    exec (.cmdProgram c) s = .next (returning .none (programStart s)) := by
  rw [exec_cmdProgram, hostCommand_idle _ hs.1 hs.2]
  rfl

theorem exec_cmdVerify_accepted (c : Line) {s : State} (hs : Accepts s) :
    exec (.cmdVerify c) s = .next (returning .none (verifyStart s)) := by
  rw [exec_cmdVerify, hostCommand_idle _ hs.1 hs.2]
  rfl

/-- A line function returns END of the empty line only. -/
theorem opLine_not_end (f : Nibble → State → Run Unit) {l : Line} (hl : l ≠ []) (s : State) :
    ∀ t, opLine f l s ≠ .done .endOfInput t := by
  intro t h
  by_cases hd : classify l = .data
  · cases hp : parseLine s.params l with
    | data vs =>
      rw [opLine_data f hd hp] at h
      cases hr : forEach f vs s <;> rw [hr] at h <;> cases h
    | reject => rw [opLine_reject f hd hp] at h; cases h
    | badHex => rw [opLine_badHex f hd hp] at h; cases h
  · rw [opLine_notData f s hd] at h
    exact hl (classify_end.1 (Run.done.inj h).1)

/-- After a line that is not empty, END is not what the line function returned, nor is it left over where it faulted. -/
theorem lineStep_result_ne_end {f : Nibble → State → Run Unit}
    (hf : ∀ v s, (f v s).EndsIn (Access s) (Faulted s)) {l : Line} (hl : l ≠ []) {s t : State}
    (h : lineStep f l s = .next t) : t.result ≠ .kind .endOfInput := by
  obtain ⟨-, e⟩ := sequencerStep_next h
  cases hr : opLine f l s with
  | done k u =>
    rw [hr] at e
    cases e
    intro hk
    cases hk
    exact opLine_not_end f hl s u hr
  | raised u =>
    have hfaulted := opLine_access s hf l
    rw [hr] at e hfaulted
    cases e
    obtain ⟨c, op, v, -, rfl⟩ := hfaulted
    simp

/-- A session waits again after an operation that does not return END. -/
theorem resumeOutcome_waits {q : SeqState} {o : Host.Outcome State Fault Refusal}
    (h : ∀ t, o = .next t → t.result ≠ .kind .endOfInput) : resumeOutcome q o = o := by
  cases o with
  | next t => exact congrArg Host.Outcome.next (resume_waits (h t rfl))
  | fault r => rfl
  | refused r => rfl

theorem lineStep_nil (f : Nibble → State → Run Unit) {s : State} (hf : s.fault = []) :
    lineStep f [] s = .next (returning (.kind .endOfInput) s) := lineStep_of_done hf rfl

/-- Settles O40: the prologue writes four fields; after a line the session goes on only where END was returned. -/
theorem programSessionRuns : Obligations.ProgramSessionRuns := by
  refine ⟨fun c s hs => exec_cmdProgram_accepted c hs, fun s l rest hf hq hi hl => ?_, fun s rest hf hq hi => ?_⟩
  · rw [step_item hf hi (i := .programLine l) (by rw [hq]; rfl)]
    exact resumeOutcome_waits fun t ht => lineStep_result_ne_end (fun v s => programNibble_access s v) hl ht
  · rw [step_item hf hi (i := .programLine []) (by rw [hq]; rfl), hq, exec_programLine_eq, lineStep_nil _ (by exact hf)]
    rfl

/-- Settles O41: as for Program, with the report of LASTMM at the end. -/
theorem verifySessionRuns : Obligations.VerifySessionRuns := by
  refine ⟨fun c s hs => exec_cmdVerify_accepted c hs, fun s l rest hf hq hi hl => ?_, fun s rest hf hq hi => ?_⟩
  · rw [step_item hf hi (i := .verifyLine l) (by rw [hq]; rfl)]
    exact resumeOutcome_waits fun t ht => lineStep_result_ne_end (fun v s => verifyNibble_access s v) hl ht
  · rw [step_item hf hi (i := .verifyLine []) (by rw [hq]; rfl), hq, exec_verifyLine_eq, lineStep_nil _ (by exact hf)]
    rfl

/-! ### A record read back as an input line (R198) -/

theorem hexOf_hexDigit (lower : Bool) (v : Nibble) : hexOf lower (hexDigit v) = v.toNat := by
  revert lower v
  decide

theorem hexDigit_recLead {d : Nat} (h : d < 4) :
    hexDigit (BitVec.ofNat 4 d) ∈ [chr '0', chr '1', chr '2', chr '3'] := by
  revert d
  decide

/-- The label of an address begins with 0 to 3, so a record is a data line. -/
theorem recordOf_isData (p : Params) (m : Memory) {a : Nat} (h : a ≤ 0x3FF) : IsData (recordOf p m a) :=
  ⟨(recordOf_length p m a).ge, _, rfl, hexDigit_recLead (by omega)⟩

theorem recordOf_getD (p : Params) (m : Memory) (a : Nat) {j : Nat} (h : j < 64) :
    (recordOf p m a).getD (5 + j) 0#8 = hexDigit (m.read (a + j)) := by
  rw [Nat.add_comm 5 j]
  simp [recordOf, addressLabel, Params.recordFiller, h]

theorem charValue_recordOf (q p : Params) (m : Memory) (a : Nat) {j : Nat} (h : j < 64) :
    charValue q (recordOf p m a) j = (m.read (a + j)).toNat := by
  rw [charValue, recordOf_getD p m a h, hexOf_hexDigit]

/-- A record is usable under any parameters, whoever dumped it. -/
theorem recordOf_usable (q p : Params) (m : Memory) {a : Nat} (h : a ≤ 0x3FF) : Usable q (recordOf p m a) := by
  refine ⟨recordOf_isData p m h, .inl fun j hj => ?_⟩
  rw [charValue_recordOf q p m a hj]
  omega

theorem lineNibble_recordOf (q p : Params) (m : Memory) (a : Nat) {j : Nat} (h : j < 64) :
    lineNibble q (recordOf p m a) j = m.read (a + j) := by
  rw [lineNibble, charValue_recordOf q p m a h, BitVec.ofNat_toNat, BitVec.setWidth_eq]

theorem recordOf_ne_nil (p : Params) (m : Memory) (a : Nat) : recordOf p m a ≠ [] := List.cons_ne_nil _ _

/-! ### A session fed with a dump (R198) -/

theorem dumpLines_drop (p : Params) (m : Memory) {k : Nat} (h : k < 16) :
    (dumpLines p m).drop k = recordOf p m (64 * k) :: (dumpLines p m).drop (k + 1) := by
  rw [List.drop_eq_getElem_cons (by simpa [dumpLines] using h)]
  simp [dumpLines]

/-- What is left of the host's items after `k` lines of a dump. -/
def itemsLeft (p : Params) (m : Memory) (k : Nat) : List HostItem :=
  ((dumpLines p m).drop k).map HostItem.line ++ [.line []]

theorem itemsLeft_succ (p : Params) (m : Memory) {k : Nat} (h : k < 16) :
    itemsLeft p m k = .line (recordOf p m (64 * k)) :: itemsLeft p m (k + 1) := by
  rw [itemsLeft, dumpLines_drop p m h]
  rfl

/-- A session in SEQ = `q` that has taken `k` lines of a dump and emitted nothing. -/
structure Fed (q : SeqState) (p : Params) (m : Memory) (o : List Event) (k : Nat) (s : State) : Prop where
  fault : s.fault = []
  seq : s.seq = q
  addr : s.addr = .val (64 * k)
  input : s.input = itemsLeft p m k
  out : s.out = o

/-- A Program session that has stored the first `k` records of the image `m`. -/
structure Programming (p : Params) (m : Memory) (o : List Event) (k : Nat) (s : State) : Prop
    extends Fed .programS p m o k s where
  mode : s.mode = .write
  wp : s.wp = .deasserted
  wf : s.mem.wf = true
  stored : ∀ a < 64 * k, s.mem.read a = m.read a

/-- A Verify session of a block with memory `mem` that has found no mismatch in `k` records of the image `m`. -/
structure Verifying (p : Params) (m mem : Memory) (o : List Event) (k : Nat) (s : State) : Prop
    extends Fed .verifyS p m o k s where
  mode : s.mode = .read
  mem : s.mem = mem
  lastmm : s.lastmm = none

/-- The next record goes to the next 64 addresses. -/
theorem Programming.step {p : Params} {m : Memory} {o : List Event} {k : Nat} {s : State} (h : Programming p m o k s)
    (hk : k < 16) : ∃ t, Machine.step s = .next t ∧ Programming p m o (k + 1) t := by
  obtain ⟨⟨hf, hq, ha, hi, ho⟩, hm, hw, hwf, hstored⟩ := h
  have hle : 64 * k ≤ 1024 := by omega
  have hnext : 64 * (k + 1) = min 1024 (64 * k + 64) := by omega
  have hexec := exec_programLine_usable (s := took s (itemsLeft p m (k + 1))) hf ha hle hm hw
    (recordOf_usable s.params p m (a := 64 * k) (by omega))
  refine ⟨_, (programSessionRuns.2.1 s _ _ hf hq (hi.trans (itemsLeft_succ p m hk)) (recordOf_ne_nil p m _)).trans hexec,
    ⟨hf, hq, congrArg Counter.val hnext.symm, rfl, ho⟩, hm, hw, programmed_wf _ hwf hle, fun a hak => ?_⟩
  refine (programmed_read _ hwf hle a).trans ?_
  by_cases hold : a < 64 * k
  · rw [if_neg (by omega)]
    exact hstored a hold
  · rw [if_pos (by omega), lineNibble_recordOf _ p m _ (by omega), Nat.add_sub_cancel' (by omega)]

/-- The next record matches the next 64 addresses. -/
theorem Verifying.step {p : Params} {m mem : Memory} {o : List Event} {k : Nat} {s : State}
    (hmem : ∀ a < 1024, mem.read a = m.read a) (h : Verifying p m mem o k s) (hk : k < 16) :
    ∃ t, Machine.step s = .next t ∧ Verifying p m mem o (k + 1) t := by
  obtain ⟨⟨hf, hq, ha, hi, ho⟩, hm, rfl, hlast⟩ := h
  have hexec := exec_verifyLine_usable (s := took s (itemsLeft p m (k + 1))) hf ha (by omega) hm
    (recordOf_usable s.params p m (a := 64 * k) (by omega))
  refine ⟨_, (verifySessionRuns.2.1 s _ _ hf hq (hi.trans (itemsLeft_succ p m hk)) (recordOf_ne_nil p m _)).trans hexec,
    ⟨hf, hq, rfl, rfl, ho⟩, hm, rfl, ?_⟩
  refine (mismatchOfLine_match (Nat.le_refl _) fun j hj => ?_).trans hlast
  rw [lineNibble_recordOf _ p m _ hj]
  exact hmem _ (by omega)

/-! ### The 18 steps of a fed session -/

/-- A predicate that counts its steps is reached after that many. -/
theorem core_run_counted {P : Nat → State → Prop} {s : State} (h0 : P 0 s) :
    ∀ n, (∀ k < n, ∀ t, P k t → ∃ u, step t = .next u ∧ P (k + 1) u) → ∃ t, core.run n s = .next t ∧ P n t
  | 0, _ => ⟨s, rfl, h0⟩
  | n + 1, hstep => by
    obtain ⟨t, hrun, ht⟩ := core_run_counted h0 n fun k hk => hstep k (by omega)
    obtain ⟨u, hu, hP⟩ := hstep n (by omega) t ht
    exact ⟨u, (core_run_add n 1 hrun).trans (core_run_step 0 hu), hP⟩

/-- A session fed with a command, 16 lines and the empty line. -/
theorem core_run_session {P : Nat → State → Prop} {Q : State → Prop} {s t : State} (hstart : step s = .next t)
    (h0 : P 0 t) (hstep : ∀ k < 16, ∀ t, P k t → ∃ u, step t = .next u ∧ P (k + 1) u)
    (hend : ∀ t, P 16 t → ∃ u, step t = .next u ∧ Q u) : ∃ u, core.run 18 s = .next u ∧ Q u := by
  obtain ⟨v, hrun, hv⟩ := core_run_counted h0 16 hstep
  obtain ⟨u, hu, hQ⟩ := hend v hv
  have hlast : core.run 1 v = .next u := core_run_step 0 hu
  exact ⟨u, (core_run_step 17 hstart).trans ((core_run_add 16 1 hrun).trans hlast), hQ⟩

/-- The first step of a block that was sent a command line and more runs the command. -/
theorem step_withLines {t : State} {c : Line} {i : Instr} (lines : List Line) (ht : Accepts t)
    (hd : decodeCommand c = i) :
    step (withLines t c lines) = exec i (took t (lines.map HostItem.line ++ [.line []])) :=
  stepRunsDecodedItem.2.1 (withLines t c lines) _ _ i ht.1 ht.2 rfl (congrArg some hd)

/-- A Program session of an idle block, fed with the dump of an image, leaves that image. -/
theorem programDump {t : State} {c : Line} (p : Params) (m : Memory) (ht : Accepts t) (hwf : t.mem.wf = true)
    (hc : decodeCommand c = .cmdProgram c) :
    ∃ u, core.run 18 (withLines t c (dumpLines p m)) = .next u ∧
      (∀ a < 1024, u.mem.read a = m.read a) ∧ Accepts u ∧ u.input = [] ∧ u.out = t.out := by
  refine core_run_session (P := Programming p m t.out)
    ((step_withLines _ ht hc).trans (exec_cmdProgram_accepted c (s := took t _) ht))
    ⟨⟨ht.1, rfl, rfl, rfl, rfl⟩, rfl, rfl, hwf, fun a ha => by omega⟩ (fun k hk s hs => hs.step hk) fun s hs => ?_
  obtain ⟨⟨hf, hq, -, hi, ho⟩, -, -, -, hstored⟩ := hs
  exact ⟨_, programSessionRuns.2.2 s [] hf hq hi, hstored, ⟨hf, rfl⟩, rfl, ho⟩

/-- A Verify session of an idle block that holds an image, fed with the dump of the image, reports no mismatch. -/
theorem verifyDump {t : State} {c : Line} (p : Params) {m : Memory} (ht : Accepts t)
    (hmem : ∀ a < 1024, t.mem.read a = m.read a) (hc : decodeCommand c = .cmdVerify c) :
    ∃ u, core.run 18 (withLines t c (dumpLines p m)) = .next u ∧
      u.out = t.out ++ [.verifyResult none] ∧ u.mem = t.mem ∧ Accepts u ∧ u.input = [] := by
  refine core_run_session (P := Verifying p m t.mem t.out)
    ((step_withLines _ ht hc).trans (exec_cmdVerify_accepted c (s := took t _) ht))
    ⟨⟨ht.1, rfl, rfl, rfl, rfl⟩, rfl, rfl, rfl⟩ (fun k hk s hs => hs.step hmem hk) fun s hs => ?_
  obtain ⟨⟨hf, hq, -, hi, ho⟩, -, hm, hlast⟩ := hs
  exact ⟨_, verifySessionRuns.2.2 s [] hf hq hi, by rw [ho, hlast], hm, ⟨hf, rfl⟩, rfl⟩

/-- Settles O47: a dump programmed gives the image record by record, and verified it gives no mismatch. -/
theorem dumpProgramVerifyRoundTrip : Obligations.DumpProgramVerifyRoundTrip :=
  fun s c hs => ⟨_, dumpLines s.params s.mem, exec_cmdRead_accepted c hs, by simp [dumpLines], rfl,
    fun _ _ ht hwf hc => programDump s.params s.mem ht hwf hc, fun _ _ ht hmem hc => verifyDump s.params ht hmem hc⟩

end Sys2Proof.Machine
end

section
/-!
PROOFS. The command lines that select no session (44_commands.md R222): the mask 0xDF drops the bit that tells the cases of
a letter apart, so a line that starts a command starts with its letter in one of the two cases.
-/

namespace Sys2Proof.Machine

open Sys2Proof.Spec

/-- A masked character fixes the character up to bit 5, the case of a letter (R73). -/
theorem char_of_masked {c code : Byte} (h : c &&& 0xDF#8 = code) : c = code ∨ c = code ||| 0x20#8 := by
  subst h
  revert c
  decide

theorem not_commandStarts {c : Byte} (code : Byte) (l : Line) (hupper : c ≠ code) (hlower : c ≠ code ||| 0x20#8) :
    commandStarts code (c :: l) = false := by
  refine decide_eq_false fun hmasked => ?_
  obtain h | h := char_of_masked hmasked
  · exact hupper h
  · exact hlower h

/-- R222's condition on the first character puts the line in the domain of CMD_NOP. -/
theorem cmdNop_wf_of_notMem {c : Byte} (l : Line)
    (hc : c ∉ [chr 'R', chr 'r', chr 'P', chr 'p', chr 'V', chr 'v', chr 'L', chr 'l']) :
    (Instr.cmdNop (c :: l)).wf = true := by
  simp only [List.mem_cons, List.not_mem_nil, or_false, not_or] at hc
  obtain ⟨hR, hr, hP, hp, hV, hv, hL, hl⟩ := hc
  rw [Instr.wf, not_commandStarts 0x52#8 l hR hr, not_commandStarts 0x50#8 l hP hp, not_commandStarts 0x56#8 l hV hv,
    not_commandStarts 0x4C#8 l hL hl]
  rfl

theorem exec_cmdNop_accepted (c : Line) {s : State} (hs : Accepts s) :
    exec (.cmdNop c) s = .next (returning .none s) := by
  rw [exec_cmdNop, hostCommand_idle _ hs.1 hs.2]
  rfl

/-- Settles O43: a line that starts with none of the eight characters starts no command, and CMD_NOP runs nothing. -/
theorem otherCommandsDoNothing : Obligations.OtherCommandsDoNothing :=
  ⟨fun _ l hc => decodeCommand_nop (cmdNop_wf_of_notMem l hc), rfl, fun c _ hs => exec_cmdNop_accepted c hs⟩

end Sys2Proof.Machine
end

section
/-!
PROOFS. Faults and waiting (60_exceptions.md R241 to R246, R252): a word during a session only takes its fault, a single
operation takes its fault in the state it found, a faulted block runs nothing, and a block with nothing to take waits.
-/

namespace Sys2Proof.Machine

open Sys2Proof.Spec

/-! ### Words during a session (R243, R244) -/

/-- Settles O8: F_RESERVED is looked for before F_BUSY, and the fault is the whole effect. -/
theorem hostWordsFaultDuringSession : Obligations.HostWordsFaultDuringSession :=
  fun w _ hf hq => exec_decodeWord_session w hf hq

/-! ### Precise faults (R241, R245) -/

/-- A run from `s` that takes its fault, if any, in `s` itself, before any other effect; a run that completes adds no
record. -/
def Run.FaultsInPlace {α : Type} (s : State) (r : Run α) : Prop :=
  r.EndsIn (fun t => t.fault = s.fault) (fun t => ∃ c op, t = raiseFault c op s)

theorem opReadAdv_faultsInPlace (s : State) : (opReadAdv s).FaultsInPlace s := by
  cases ha : s.addr with
  | unknown =>
    rw [opReadAdv_unknown ha]
    exact ⟨_, _, rfl⟩
  | val a =>
    obtain ⟨c, e⟩ | ⟨-, e⟩ := opReadAdv_cases ha <;> rw [e]
    · exact ⟨_, _, rfl⟩
    · exact rfl

theorem opWriteAdv_faultsInPlace (n : Nibble) (s : State) : (opWriteAdv n s).FaultsInPlace s := by
  cases ha : s.addr with
  | unknown =>
    rw [opWriteAdv_unknown n ha]
    exact ⟨_, _, rfl⟩
  | val a =>
    obtain ⟨c, e⟩ | ⟨-, e⟩ := opWriteAdv_cases n ha <;> rw [e]
    · exact ⟨_, _, rfl⟩
    · exact rfl

theorem opParseLine_faultsInPlace (l : Line) (s : State) : (opParseLine l s).FaultsInPlace s := by
  by_cases hl : classify l = .data
  · rw [opParseLine_eq hl]
    cases parseLine s.params l with
    | data | reject => exact rfl
    | badHex => exact ⟨_, _, rfl⟩
  · rw [opParseLine_other hl]
    exact rfl

/-- The outcome of such a run from a block without a fault is the fault it took in place, if it has one. -/
theorem finish_faultsInPlace {r : Run Result} {s t : State} (hr : r.FaultsInPlace s) (hf : s.fault = [])
    (h : finish r = .next t) (ht : t.fault ≠ []) : ∃ c op, t = raiseFault c op s := by
  cases r with
  | done v u =>
    cases h
    exact absurd (Eq.trans hr hf) ht
  | raised u =>
    cases h
    exact hr

theorem hostWord_faultsInPlace {w : Byte} {f : State → Run Result} {s t : State} (h : hostWord w f s = .next t)
    (ht : t.fault ≠ []) (hr : (f s).FaultsInPlace s) : ∃ c op, t = raiseFault c op s := by
  obtain ⟨hf, ⟨-, e⟩ | rfl⟩ := hostWord_next h
  · exact finish_faultsInPlace hr hf e ht
  · exact ⟨_, _, rfl⟩

theorem sequencerStep_faultsInPlace {f : State → Run Result} {s t : State} (h : sequencerStep f s = .next t)
    (ht : t.fault ≠ []) (hr : (f s).FaultsInPlace s) : ∃ c op, t = raiseFault c op s := by
  obtain ⟨hf, e⟩ := sequencerStep_next h
  exact finish_faultsInPlace hr hf e ht

/-- An operation word or PARSE_LINE takes its fault before any other effect. -/
theorem exec_single_faultsInPlace {i : Instr} {s t : State} (hi : isSingle i = true) (h : exec i s = .next t)
    (ht : t.fault ≠ []) : ∃ c op, t = raiseFault c op s := by
  cases i with
  | reset => exact hostWord_faultsInPlace ((exec_reset s).symm.trans h) ht rfl
  | modeRead => exact hostWord_faultsInPlace ((exec_modeRead s).symm.trans h) ht rfl
  | modeWrite => exact hostWord_faultsInPlace ((exec_modeWrite s).symm.trans h) ht rfl
  | wpAssert => exact hostWord_faultsInPlace ((exec_wpAssert s).symm.trans h) ht rfl
  | wpDeassert => exact hostWord_faultsInPlace ((exec_wpDeassert s).symm.trans h) ht rfl
  | readAdv =>
    rw [exec_readAdv] at h
    exact hostWord_faultsInPlace h ht ((opReadAdv_faultsInPlace s).next fun _ _ hu => hu)
  | writeAdv n =>
    rw [exec_writeAdv] at h
    exact hostWord_faultsInPlace h ht ((opWriteAdv_faultsInPlace n s).next fun _ _ hu => hu)
  | opwReserved w =>
    obtain ⟨-, e⟩ := whenRunning_next h
    cases e
    exact ⟨.reserved, .word w, rfl⟩
  | parseLine l =>
    rw [exec_parseLine] at h
    refine sequencerStep_faultsInPlace h ht ((opParseLine_faultsInPlace l s).next fun p u hu => ?_)
    cases p <;> exact hu
  | cmdRead | cmdProgram | cmdVerify | cmdList | cmdNop | decodeOffset | decodeFreq | normalize | renderOffset
  | renderFreq | hexChar | hexValue | encodeRecord | label | qualifyLine | classify | programLine | verifyLine | skip
  | seek => cases hi

/-- Settles O51: the fault was taken in the state before, whose FAULT was empty, so its record is the only one. -/
theorem faultEntryIsPrecise : Obligations.FaultEntryIsPrecise := by
  intro i s t hi hf h ht
  obtain ⟨c, op, rfl⟩ := exec_single_faultsInPlace hi h ht
  refine ⟨c, op, ?_⟩
  rw [raiseFault, hf, List.nil_append]

/-! ### Waiting and stopping (R246, R252) -/

/-- Settles O49: with no item in the queue, the model's form of a waiting block (notes/assumptions/2.md), step takes its
first branch. -/
theorem stepWaitsForHost : Obligations.StepWaitsForHost := by
  intro s hf hi
  rw [step, whenRunning_ok hf, hi]

/-- Every instruction asks first whether the block runs (R246). -/
theorem exec_eq_whenRunning (i : Instr) (s : State) : ∃ k, exec i s = whenRunning s k := by
  cases i with
  | skip n => cases n <;> exact ⟨_, rfl⟩
  | _ => exact ⟨_, rfl⟩

theorem exec_halted (i : Instr) {s : State} (h : s.fault ≠ []) : exec i s = .fault .halted := by
  obtain ⟨k, e⟩ := exec_eq_whenRunning i s
  rw [e, whenRunning_halted h]

/-- Settles O50: a step and an instruction both ask first whether the block runs. -/
theorem faultsAreSticky : Obligations.FaultsAreSticky := fun _ h => ⟨step_halted h, fun i => exec_halted i h⟩

end Sys2Proof.Machine
end

section
/-!
PROOFS. Power-on and reset (10_state.md R35, 20_memory.md R67, 70_reset_and_hazards.md R260): the values every element starts
from, and that they meet the invariant; and that a session does not depend on the ADDR and MODE it finds (R262), because
its prologue writes both before anything reads them.
-/

namespace Sys2Proof.Machine

/-! ### Power-on (R35, R67, R260) -/

/-- Settles O52: each element is read off the definition, and a block whose queue is empty waits. -/
theorem powerOnState : Obligations.PowerOnState :=
  ⟨fun p m => ⟨rfl, rfl, rfl, rfl, rfl, rfl, rfl, rfl, rfl, stepWaitsForHost (State.powerOn p m) rfl rfl⟩, rfl⟩

theorem tableOk_powerOn (p : Params) (m : Memory) : tableOk (State.powerOn p m).ofs := ⟨rfl, rfl⟩

/-- A block at power-on is idle, with an UNKNOWN counter, no mismatch, an UNWRITTEN table and no fault; only the launch
image has to be canonical. -/
theorem powerOn_inv (p : Params) {m : Memory} (hm : m.wf = true) : (State.powerOn p m).Inv :=
  State.inv_of_running ⟨hm, rfl, rfl⟩ (tableOk_powerOn p m) (seqOk_idle rfl) rfl

/-- The invariant does not speak of the count of draws, in which alone a power cycle differs from a power-on. -/
theorem powerCycle_inv {s : State} (hm : s.mem.wf = true) : s.powerCycle.Inv := powerOn_inv s.params hm

/-- Settles O54: a reset and a power cycle are power-ons, and a power-on meets the invariant. -/
theorem powerOnMeetsInvariant : Obligations.PowerOnMeetsInvariant :=
  ⟨fun p _ hm => powerOn_inv p hm, powerOn_inv Params.default rfl, fun _ hm => powerCycle_inv hm⟩

/-! ### What a session finds (R262) -/

/-- The block with the counter and the bus mode another session left. -/
def State.withBus (s : State) (x : Counter) (y : BusMode) : State := { s with addr := x, mode := y }

/-- RESET and MODE_READ write both (R262). -/
theorem readPrologue_withBus (s : State) (x : Counter) (y : BusMode) : readPrologue (s.withBus x y) = readPrologue s :=
  rfl

/-- RESET and MODE_WRITE write both (R262). -/
theorem programPrologue_withBus (s : State) (x : Counter) (y : BusMode) :
    programPrologue (s.withBus x y) = programPrologue s := rfl

theorem readSession_withBus (s : State) (x : Counter) (y : BusMode) : readSession (s.withBus x y) = readSession s := by
  have hp : readPrologue { s.withBus x y with seq := .readS } = readPrologue { s with seq := .readS } :=
    readPrologue_withBus { s with seq := .readS } x y
  rw [readSession, hp, readSession]

theorem programStart_withBus (s : State) (x : Counter) (y : BusMode) : programStart (s.withBus x y) = programStart s :=
  programPrologue_withBus { s with seq := .programS } x y

theorem verifyStart_withBus (s : State) (x : Counter) (y : BusMode) : verifyStart (s.withBus x y) = verifyStart s :=
  readPrologue_withBus { s with seq := .verifyS, lastmm := none } x y

theorem listSession_withBus (s : State) (x : Counter) (y : BusMode) : listSession (s.withBus x y) = listSession s := by
  have hp : readPrologue { s.withBus x y with seq := .listS, ofs := List.replicate Config.nOfs none } =
      readPrologue { s with seq := .listS, ofs := List.replicate Config.nOfs none } :=
    readPrologue_withBus { s with seq := .listS, ofs := List.replicate Config.nOfs none } x y
  rw [listSession, hp, listSession]

/-- Whether a command is taken turns on FAULT and SEQ only, so a session that ignores ADDR and MODE answers the same. -/
theorem hostCommand_withBus {f : State → Run Result} {s : State} {x : Counter} {y : BusMode}
    (hf : f (s.withBus x y) = f s) : hostCommand f (s.withBus x y) = hostCommand f s := by
  rw [hostCommand, hf]
  rfl

/-- Settles O45: the prologue of each of the four sessions overwrites ADDR and MODE. -/
theorem sessionsIgnorePriorCounterAndMode : Obligations.SessionsIgnorePriorCounterAndMode := by
  rintro c s x y i (rfl | rfl | rfl | rfl) -
  · exact hostCommand_withBus (readSession_withBus s x y)
  · exact hostCommand_withBus (f := fun s => .done Result.none (programStart s))
      (congrArg (Run.done Result.none) (programStart_withBus s x y))
  · exact hostCommand_withBus (f := fun s => .done Result.none (verifyStart s))
      (congrArg (Run.done Result.none) (verifyStart_withBus s x y))
  · exact hostCommand_withBus (listSession_withBus s x y)

end Sys2Proof.Machine
end
